-- ==== Sys2Proof/Word.lean ====
section
/-! DEFINITION. Sys2Proof/Word.lean: the widths of the values the block moves (00_scope.md R7, R8; 20_memory.md
R41, R47). Every value is unsigned (00_scope.md R7). -/

namespace Sys2Proof

/-- One byte of a buffer (00_scope.md R7). -/
abbrev Byte := BitVec 8

/-- A register value, and one 32-bit transfer of the host bus (00_scope.md R8; 20_memory.md R42). -/
abbrev Word := BitVec 32

/-- The 8-byte checksum field as one value (00_scope.md R8; 10_state.md R17). -/
abbrev DWord := BitVec 64

/-- An address of the host bus (20_memory.md R41). -/
abbrev BusAddr := BitVec 18

/-- An offset inside one 64 KiB window of the host bus (20_memory.md R41). -/
abbrev Offset := BitVec 16

end Sys2Proof
end

