-- ==== Sys2Proof/Config.lean ====
section
/-! DEFINITION. Sys2Proof/Config.lean: the parameters of 00_scope.md R5. `F` is the one parameter a model takes as an
argument; everything else is a constant. -/

namespace Sys2Proof

/-- The parameter of one block: the total size `F` of a Frame in bytes, `20 <= F <= 65536` (00_scope.md R5). The
bounds travel with the value, so that no other value can be built. -/
structure Config where
  F    : Nat
  F_ge : 20 ≤ F := by decide
  F_le : F ≤ 65536 := by decide
deriving DecidableEq, Repr

/-- The default `F = 1000` (00_scope.md R5). -/
def Config.default : Config := { F := 1000 }

/-- `HDR`, the size of a Frame header in bytes (00_scope.md R5). -/
def HDR : Nat := 20

/-- `CAP`, the most content bytes a Frame holds: `F - 20` (00_scope.md R5). -/
def Config.cap (c : Config) : Nat := c.F - HDR

/-- `RSZ`, the size of a Reply in bytes (00_scope.md R5; 90_conflicts.md C3). -/
def RSZ : Nat := 16

/-- `MIN_FRAME`, the least valid length of a received Frame (00_scope.md R5). -/
def MIN_FRAME : Nat := 20

/-- `MIN_REPLY`, the least valid length of a received Reply (00_scope.md R5). -/
def MIN_REPLY : Nat := 16

/-- `COV`, the offset of the first byte the checksum covers (00_scope.md R5; 30_encoding.md R63). -/
def COV : Nat := 8

/-- Offsets of the wire fields (30_encoding.md R60, R61; 20_memory.md R46). -/
def OFF_CHECKSUM : Nat := 0

/-- Offset of `sequence` in both formats (30_encoding.md R60, R61). -/
def OFF_SEQUENCE : Nat := 8

/-- Offset of `kind` in a Frame and of `status` in a Reply (30_encoding.md R60, R61). -/
def OFF_DISC : Nat := 12

/-- Offset of `length` in a Frame (30_encoding.md R60). -/
def OFF_LENGTH : Nat := 16

/-- Offset of the content region of a Frame (30_encoding.md R60). -/
def OFF_CONTENT : Nat := 20

/-- `kind` of a Name frame (00_scope.md R5). -/
def K_NAME : Word := 1#32

/-- `kind` of a Data frame (00_scope.md R5). -/
def K_DATA : Word := 2#32

/-- `status` of an acknowledgment (00_scope.md R5). -/
def S_ACK : Word := 1#32

/-- `status` of a negative acknowledgment (00_scope.md R5). -/
def S_NAK : Word := 2#32

end Sys2Proof
end

