-- ==== Sys2Proof/Syntax.lean ====
section
/-! DEFINITION. Sys2Proof/Syntax.lean: the commands of the block (30_encoding.md R70), the host transactions
(20_memory.md R42, R47), the events the outside can present to the block, and the host-script notation
(30_encoding.md R75, R76). -/

namespace Sys2Proof

/-- The six commands, one constructor for each row of the opcode table. A command has no operand of its own:
every operand comes from a register or a buffer (30_encoding.md R65, R70). -/
inductive Instr where
  | encFrame   -- ENC_FRAME, 41_encode.md R90
  | encReply   -- ENC_REPLY, 41_encode.md R91
  | verFrame   -- VER_FRAME, 42_verify.md R100
  | verReply   -- VER_REPLY, 42_verify.md R101
  | decFrame   -- DEC_FRAME, 43_decode.md R110
  | decReply   -- DEC_REPLY, 43_decode.md R111
deriving DecidableEq, Repr

/-- The nine register names of 10_state.md R30. -/
inductive Reg where
  | cmd | stat | seq | disc | len | buflen | csumHi | csumLo | fsize
deriving DecidableEq, Repr

/-- The six kinds of host transaction (20_memory.md R42), each with an address the bus can carry to its window. -/
inductive Transaction where
  | regRead  (r : Reg)
  | regWrite (r : Reg) (v : Word)
  | bufRead  (a : Offset)
  | bufWrite (a : Offset) (b : Byte)
  | payRead  (a : Offset)
  | payWrite (a : Offset) (b : Byte)
deriving DecidableEq, Repr

/-- `req_size` of 20_memory.md R47: an 8-bit or a 32-bit access. -/
inductive BusSize where
  | byte | word
deriving DecidableEq, Repr

/-- One request as the bus carries it: `req_write`, `req_size`, `req_addr`, `req_wdata` (20_memory.md R47). Every
combination can be presented (60_exceptions.md R134 H-1); which ones are refused is 20_memory.md R45. -/
structure BusReq where
  write : Bool
  size  : BusSize
  addr  : BusAddr
  wdata : Word
deriving DecidableEq, Repr

/-- Why a transaction is refused, the cases B1 to B6 of 20_memory.md R45. The host is told only that it was
(`rsp_err`); the name is the model's own record of the case (log 6). -/
inductive BusRefusal where
  /-- B1: nothing is mapped at the address. -/
  | unmapped
  /-- B2: a width the window does not accept. -/
  | badWidth
  /-- B2: a 32-bit access at an address that is no multiple of 4. -/
  | misaligned
  /-- B3: a read of `CMD`. -/
  | cmdRead
  /-- B4: a write of `STAT`, `CSUM_HI`, `CSUM_LO` or `FSIZE`. -/
  | readOnly
  /-- B5: a write of `BUFLEN` with a value above `F`. -/
  | buflenTooLarge
  /-- B6: a `BUF` or `PAY` offset past the end of the buffer. -/
  | outsideBuffer
deriving DecidableEq, Repr

/-- What the outside can present to the block. -/
inductive HostEvent where
  /-- A host transaction (20_memory.md R42, R47). -/
  | req (r : BusReq)
  /-- `rst` asserted between transactions (70_reset_and_hazards.md R150). -/
  | reset
  /-- `rst` asserted while the request `r` is in progress (70_reset_and_hazards.md R151). -/
  | resetDuring (r : BusReq)
  /-- The host breaks the handshake: it changes or withdraws a request before `rsp_valid`, presents a second one,
  or a second host uses the block (93_implementation_defined.md U16, U17; 60_exceptions.md R134 H-3). -/
  | breaksHandshake
deriving DecidableEq, Repr

/-- A statement of the host-script notation, with the numbers as written (30_encoding.md R75). -/
inductive Stmt where
  | wr  (r : Reg) (v : Nat)
  | rd  (r : Reg)
  | cmd (i : Instr)
  | bw  (a b : Nat)
  | br  (a : Nat)
  | pw  (a b : Nat)
  | pr  (a : Nat)
deriving DecidableEq, Repr

/-- A pseudo-operation of the host-script notation, with the operands the notation writes (30_encoding.md R76). -/
inductive Pseudo where
  | loadbuf     (bytes : List Byte)
  | loadpay     (bytes : List Byte)
  | readbuf     (n : Nat)
  | encode      (seq kind : Nat) (bytes : List Byte)
  | encodeReply (seq status : Nat)
  | verifyFrame
  | verifyReply
  | decodeFrame
  | decodeReply
deriving DecidableEq, Repr

end Sys2Proof
end

