-- ==== Sys2Proof/WellFormed.lean ====
section
/-! DEFINITION. Sys2Proof/WellFormed.lean: which terms of the syntax can be written to the bus. A command has no
operand (30_encoding.md R65), so the checks are about the host's side: the numbers of a script statement
(30_encoding.md R75) and the operands of a pseudo-operation (R76). -/

namespace Sys2Proof

/-- The range of the parameter `F` (00_scope.md R5), as a check on a bare number. -/
def legalF (n : Nat) : Bool := 20 ≤ n && n ≤ 65536

/-- Every command is well formed: it has no operand (30_encoding.md R65). -/
def Instr.wf : Instr → Bool
  | .encFrame | .encReply | .verFrame | .verReply | .decFrame | .decReply => true

/-- A statement's value fits the register, its byte fits a byte, and its offset fits the 64 KiB window
(30_encoding.md R75; 20_memory.md R41; log 12). -/
def Stmt.wf : Stmt → Bool
  | .wr _ v => v < 2 ^ 32
  | .rd _ => true
  | .cmd i => i.wf
  | .bw a b => a < 2 ^ 16 && b < 2 ^ 8
  | .br a => a < 2 ^ 16
  | .pw a b => a < 2 ^ 16 && b < 2 ^ 8
  | .pr a => a < 2 ^ 16

/-- The length requirements of 30_encoding.md R76: `n <= F` for `loadbuf`, `n <= F - 20` for `loadpay` and so for `encode`.
R76 bounds no other number; the other checks say only that each statement of the expansion is well formed (log 12). -/
def Pseudo.wf (c : Config) : Pseudo → Bool
  | .loadbuf bytes => bytes.length ≤ c.F
  | .loadpay bytes => bytes.length ≤ c.cap
  | .readbuf n => n ≤ 2 ^ 16
  | .encode seq kind bytes => seq < 2 ^ 32 && kind < 2 ^ 32 && bytes.length ≤ c.cap
  | .encodeReply seq status => seq < 2 ^ 32 && status < 2 ^ 32
  | .verifyFrame => true
  | .verifyReply => true
  | .decodeFrame => true
  | .decodeReply => true

end Sys2Proof
end

