-- ==== Sys2Proof/Decode.lean ====
section
/-! DEFINITION. Sys2Proof/Decode.lean: the command word (30_encoding.md R70, R72), the register addresses
(10_state.md R30), the flat bus map (20_memory.md R41, R43), and their encoders; the bus form of the host-script
statements and the expansion of the pseudo-operations (30_encoding.md R75, R76). -/

namespace Sys2Proof

/-! ### The command word -/

/-- Why a 32-bit word is no command (30_encoding.md R72). -/
inductive Reject where
  /-- `w[31:8]` is not 0. -/
  | reservedBits
  /-- `w[31:8]` is 0 and `w[7:0]` is 0 or above 6. -/
  | unassignedOpcode
deriving DecidableEq, Repr

/-- Bits 31:8 of a command word, the field `zero` of format `CMD32` (30_encoding.md R70). -/
def cmdZero (w : Word) : BitVec 24 := w.extractLsb' 8 24

/-- Bits 7:0 of a command word, the field `op` of format `CMD32` (30_encoding.md R70). -/
def cmdOp (w : Word) : Byte := w.extractLsb' 0 8

/-- The opcode map of 30_encoding.md R70, read from the opcode. -/
def instrOfOp (op : Byte) : Except Reject Instr :=
  match op.toNat with
  | 1 => .ok .encFrame
  | 2 => .ok .encReply
  | 3 => .ok .verFrame
  | 4 => .ok .verReply
  | 5 => .ok .decFrame
  | 6 => .ok .decReply
  | _ => .error .unassignedOpcode

/-- The decoder of 30_encoding.md R70: `w[31:8] = 0` and `w[7:0]` in 1 to 6; everything else is rejected (R72). -/
def decode (w : Word) : Except Reject Instr :=
  if cmdZero w = 0#24 then instrOfOp (cmdOp w) else .error .reservedBits

/-- The opcode map of 30_encoding.md R70, read from the command. -/
def opOf : Instr → Byte
  | .encFrame => 0x01#8
  | .encReply => 0x02#8
  | .verFrame => 0x03#8
  | .verReply => 0x04#8
  | .decFrame => 0x05#8
  | .decReply => 0x06#8

/-- The word of a command in format `CMD32`: `zero` in bits 31:8, `op` in bits 7:0 (30_encoding.md R70). -/
def encode (i : Instr) : Word := 0#24 ++ opOf i

/-- The low `nbits` bits of `w` as the 32-bit word they stand for, every bit above them 0. -/
def tableWord (nbits w : Nat) : Word := BitVec.ofNat 32 (w % 2 ^ nbits)

/-- What the decoder reads from an opcode-table word of `nbits` bits. A command is one 32-bit word (30_encoding.md
R70), so a longer row is none (log 4). -/
def decodeTableWord (nbits w : Nat) : Option Instr :=
  if nbits ≤ 32 then
    match decode (tableWord nbits w) with
    | .ok i => some i
    | .error _ => none
  else none

/-! ### Register addresses -/

/-- The register map of 10_state.md R30. -/
def regAddr : Reg → Offset
  | .cmd => 0x00#16
  | .stat => 0x04#16
  | .seq => 0x08#16
  | .disc => 0x0C#16
  | .len => 0x10#16
  | .buflen => 0x14#16
  | .csumHi => 0x18#16
  | .csumLo => 0x1C#16
  | .fsize => 0x20#16

/-- The register at an offset of the `REG` window (10_state.md R30). Offsets `0x24` and up are unassigned; an offset
below that names a register only if it is a multiple of 4. -/
def regAt (off : Offset) : Option Reg :=
  match off.toNat with
  | 0x00 => some .cmd
  | 0x04 => some .stat
  | 0x08 => some .seq
  | 0x0C => some .disc
  | 0x10 => some .len
  | 0x14 => some .buflen
  | 0x18 => some .csumHi
  | 0x1C => some .csumLo
  | 0x20 => some .fsize
  | _ => none

/-! ### The flat bus map -/

/-- The window an address lies in: bits 17:16 (20_memory.md R41). -/
def busWindow (a : BusAddr) : BitVec 2 := a.extractLsb' 16 2

/-- The offset inside the window: bits 15:0 (20_memory.md R41). -/
def busOffset (a : BusAddr) : Offset := a.extractLsb' 0 16

/-- A request to the `REG` window: 32 bits wide and aligned, or refused (20_memory.md R43; 10_state.md R30). -/
def decodeReg (r : BusReq) : Except BusRefusal Transaction :=
  match r.size with
  | .byte => .error .badWidth
  | .word =>
    if (busOffset r.addr).toNat % 4 ≠ 0 then .error .misaligned
    else
      match regAt (busOffset r.addr) with
      | none => .error .unmapped
      | some reg => .ok (if r.write then .regWrite reg r.wdata else .regRead reg)

/-- The byte an 8-bit write carries: bits 7:0 of `req_wdata`, bits 31:8 ignored (20_memory.md R47). -/
def wdataByte (w : Word) : Byte := w.extractLsb' 0 8

/-- A request to the `BUF` window: 8 bits wide, or refused (20_memory.md R43). -/
def decodeBuf (r : BusReq) : Except BusRefusal Transaction :=
  match r.size with
  | .word => .error .badWidth
  | .byte => .ok (if r.write then .bufWrite (busOffset r.addr) (wdataByte r.wdata) else .bufRead (busOffset r.addr))

/-- A request to the `PAY` window: 8 bits wide, or refused (20_memory.md R43). -/
def decodePay (r : BusReq) : Except BusRefusal Transaction :=
  match r.size with
  | .word => .error .badWidth
  | .byte => .ok (if r.write then .payWrite (busOffset r.addr) (wdataByte r.wdata) else .payRead (busOffset r.addr))

/-- Which transaction a bus request is: the map of 20_memory.md R41 with the widths of R43. What it refuses are the
cases B1 and B2 of R45 that depend on the request alone. -/
def decodeBus (r : BusReq) : Except BusRefusal Transaction :=
  if busWindow r.addr = 0#2 then decodeReg r
  else if busWindow r.addr = 1#2 then decodeBuf r
  else if busWindow r.addr = 2#2 then decodePay r
  else .error .unmapped

/-- The bus form of each transaction (20_memory.md R42; 30_encoding.md R75). A read carries 0 as its unused data, and an
8-bit write carries 0 in the bits the bus ignores. -/
def encodeBus : Transaction → BusReq
  | .regRead r => ⟨false, .word, 0#2 ++ regAddr r, 0#32⟩
  | .regWrite r v => ⟨true, .word, 0#2 ++ regAddr r, v⟩
  | .bufRead a => ⟨false, .byte, 1#2 ++ a, 0#32⟩
  | .bufWrite a b => ⟨true, .byte, 1#2 ++ a, b.setWidth 32⟩
  | .payRead a => ⟨false, .byte, 2#2 ++ a, 0#32⟩
  | .payWrite a b => ⟨true, .byte, 2#2 ++ a, b.setWidth 32⟩

/-- The bus form of a write of the command word `w` to `CMD` (10_state.md R21). -/
def cmdWrite (w : Word) : BusReq := encodeBus (.regWrite .cmd w)

/-! ### Host scripts -/

/-- The transaction of a script statement (30_encoding.md R75). -/
def stmtTransaction : Stmt → Transaction
  | .wr r v => .regWrite r (BitVec.ofNat 32 v)
  | .rd r => .regRead r
  | .cmd i => .regWrite .cmd (encode i)
  | .bw a b => .bufWrite (BitVec.ofNat 16 a) (BitVec.ofNat 8 b)
  | .br a => .bufRead (BitVec.ofNat 16 a)
  | .pw a b => .payWrite (BitVec.ofNat 16 a) (BitVec.ofNat 8 b)
  | .pr a => .payRead (BitVec.ofNat 16 a)

/-- The event a script statement presents to the block (30_encoding.md R75). -/
def stmtEvent (st : Stmt) : HostEvent := .req (encodeBus (stmtTransaction st))

/-- `bw a, b0`; `bw a+1, b1`; ... -/
def bwFrom (a : Nat) : List Byte → List Stmt
  | [] => []
  | b :: bs => .bw a b.toNat :: bwFrom (a + 1) bs

/-- `pw a, b0`; `pw a+1, b1`; ... -/
def pwFrom (a : Nat) : List Byte → List Stmt
  | [] => []
  | b :: bs => .pw a b.toNat :: pwFrom (a + 1) bs

/-- `br a`; `br a+1`; ..., `n` statements. -/
def brFrom (a : Nat) : Nat → List Stmt
  | 0 => []
  | n + 1 => .br a :: brFrom (a + 1) n

/-- The expansions of 30_encoding.md R76, as far as they are fixed by the text alone: all of each, but for the `br` of
`decodeFrame`, whose number is what its own `rd LEN` returns (`Machine.expandAfter`, log 11). -/
def expand : Pseudo → List Stmt
  | .loadbuf bytes => bwFrom 0 bytes ++ [.wr .buflen bytes.length]
  | .loadpay bytes => pwFrom 0 bytes ++ [.wr .len bytes.length]
  | .readbuf n => brFrom 0 n
  | .encode seq kind bytes =>
      [.wr .seq seq, .wr .disc kind] ++ pwFrom 0 bytes ++ [.wr .len bytes.length, .cmd .encFrame, .rd .stat]
  | .encodeReply seq status => [.wr .seq seq, .wr .disc status, .cmd .encReply, .rd .stat]
  | .verifyFrame => [.cmd .verFrame, .rd .stat]
  | .verifyReply => [.cmd .verReply, .rd .stat]
  | .decodeFrame => [.cmd .decFrame, .rd .stat, .rd .seq, .rd .disc, .rd .len]
  | .decodeReply => [.cmd .decReply, .rd .stat, .rd .seq, .rd .disc]

end Sys2Proof
end

