-- ==== Sys2Proof/Machine/State.lean ====
section
/-! DEFINITION. Sys2Proof/Machine/State.lean: the complete architectural state of one block (10_state.md R10) as plain
data, the reset state (10_state.md R27; 70_reset_and_hazards.md R150), and the reasons a step can stop. -/

namespace Sys2Proof.Machine

/-- The bytes of one buffer space: cells with strictly rising addresses and no cell that holds `0x00`, since an
unlisted address reads as `0x00`, the reset value of every buffer byte (10_state.md R27; log 5). -/
abbrev Memory := List Host.Cell

/-- The seven result codes of 60_exceptions.md R120, by name. -/
inductive ErrCode where
  /-- `E_NONE`: the command completed. -/
  | none
  /-- `E_ILLEGAL_CMD`: the word written to `CMD` is no command. -/
  | illegalCmd
  /-- `E_TOOLONG`: `LEN > F - 20`. -/
  | tooLong
  /-- `E_DISC`: `DISC` is neither 1 nor 2. -/
  | disc
  /-- `E_NOTVERIFIED`: `STAT.VALID = 0`. -/
  | notVerified
  /-- `E_SHORT`: `BUFLEN` below the header of the format. -/
  | short
  /-- `E_LENGTH`: the `length` field exceeds the content present. -/
  | length
deriving DecidableEq, Repr

/-- The response of the interface to one transaction (20_memory.md R42, R47). -/
inductive Response where
  /-- A write was accepted. -/
  | ok
  /-- A read was accepted: `rsp_rdata`; an 8-bit read has its byte in bits 7:0 and 0 above (R47). -/
  | data (v : Word)
  /-- The transaction was refused: `rsp_err = 1` (20_memory.md R45). -/
  | busError
deriving DecidableEq, Repr

/-- Why the machine stops. -/
inductive Fault where
  /-- Raised by `step` on a pending `breaksHandshake`: the host broke the one-transaction-at-a-time handshake, and the
  spec promises nothing (93_implementation_defined.md U16, U17). Safe: nothing is claimed of what follows (log 7). -/
  | brokenHandshake
deriving DecidableEq, Repr

/-- Why an instruction has no meaning here. -/
inductive Refusal where
  /-- Raised by an arm of `exec` that has no meaning yet; no arm of this model does. Safe: nothing is claimed. -/
  | notModelled (mnemonic : String)
deriving DecidableEq, Repr

/-- The state. `seq` to `pay` are the whole of 10_state.md R10; `cfg` is the parameter of the instance (00_scope.md
R5); `pending` and `responses` are the model's own record of the host's side (logs 2 and 3). -/
structure State where
  /-- The parameter `F` of this instance, a constant (00_scope.md R5; 70_reset_and_hazards.md R151). -/
  cfg : Config
  /-- `SEQ` (10_state.md R13). -/
  seq : Word
  /-- `DISC` (10_state.md R14). -/
  disc : Word
  /-- `LEN` (10_state.md R15). -/
  len : Word
  /-- `BUFLEN` (10_state.md R16). -/
  buflen : Word
  /-- `CSUM` (10_state.md R17). -/
  csum : DWord
  /-- `STAT.VALID` (10_state.md R18, R19). -/
  valid : Bool
  /-- `STAT.ERR` (10_state.md R18, R20). -/
  err : Byte
  /-- `BUF[0:F]` (10_state.md R23). -/
  buf : Memory
  /-- `PAY[0:F-20]` (10_state.md R24). -/
  pay : Memory
  /-- The host events not served yet, the next one first (log 2). -/
  pending : List HostEvent
  /-- The responses given so far, the oldest first (70_reset_and_hazards.md R161; log 3). -/
  responses : List Response
deriving DecidableEq, Repr

/-- The reset state of an instance with parameter `c` (10_state.md R27). -/
def State.resetOf (c : Config) : State :=
  { cfg := c, seq := 0#32, disc := 0#32, len := 0#32, buflen := 0#32, csum := 0#64, valid := false, err := 0x00#8,
    buf := [], pay := [], pending := [], responses := [] }

/-- The reset state at the default `F = 1000` (10_state.md R27; 00_scope.md R5; log 1). -/
def State.reset : State := State.resetOf Config.default

end Sys2Proof.Machine
end

