-- ==== Sys2Proof/Machine/Flags.lean ====
section
/-! DEFINITION. Sys2Proof/Machine/Flags.lean: the status register (10_state.md R18 to R20; 60_exceptions.md R120). -/

namespace Sys2Proof.Machine

/-- The number of each result code (60_exceptions.md R120). -/
def errCode : ErrCode → Byte
  | .none => 0x00#8
  | .illegalCmd => 0x01#8
  | .tooLong => 0x02#8
  | .disc => 0x03#8
  | .notVerified => 0x04#8
  | .short => 0x05#8
  | .length => 0x06#8

/-- The 32-bit value a read of `STAT` returns: `ERR` in bits 15:8, `VALID` in bit 0, every other bit 0 (10_state.md
R18). -/
def statWord (s : State) : Word := 0#16 ++ s.err ++ 0#7 ++ BitVec.ofBool s.valid

/-- `STAT.ERR <- code` (10_state.md R20). -/
def setErr (e : ErrCode) (s : State) : State := { s with err := errCode e }

/-- `STAT.VALID <- v` (10_state.md R19). -/
def setValid (v : Bool) (s : State) : State := { s with valid := v }

end Sys2Proof.Machine
end

