-- ==== Sys2Proof/Machine/Ops.lean ====
section
/-! DEFINITION. Sys2Proof/Machine/Ops.lean: the named operations over the buffers, and the two ways a transaction goes
wrong: a command that raises an error (60_exceptions.md R123) and a refused transaction (20_memory.md R45). -/

namespace Sys2Proof.Machine

/-! ### Buffer bytes -/

/-- The byte at address `a`; an unlisted address reads as `0x00` (log 5). -/
def Memory.read : Memory → Nat → Byte
  | [], _ => 0x00#8
  | (x, b) :: m, a => if x = a then b else Memory.read m a

/-- `B[a : a+n]`: the `n` bytes from address `a` on (00_scope.md R7). -/
def Memory.readBytes (m : Memory) (a : Nat) : Nat → List Byte
  | 0 => []
  | n + 1 => Memory.read m a :: Memory.readBytes m (a + 1) n

/-- The cells that hold the bytes `bs` at addresses `a`, `a+1`, ...; a byte `0x00` needs no cell. -/
def Memory.cellsOf (a : Nat) : List Byte → Memory
  | [] => []
  | b :: bs => if b = 0x00#8 then Memory.cellsOf (a + 1) bs else (a, b) :: Memory.cellsOf (a + 1) bs

/-- `B[a : a+n] <- bs` for the `n` bytes `bs`: the bytes below and above stay, those between are replaced. -/
def Memory.writeBytes (m : Memory) (a : Nat) (bs : List Byte) : Memory :=
  m.filter (fun c => c.1 < a) ++ Memory.cellsOf a bs ++ m.filter (fun c => a + bs.length ≤ c.1)

/-- `B[a] <- b`. -/
def Memory.write (m : Memory) (a : Nat) (b : Byte) : Memory := Memory.writeBytes m a [b]

/-- The canonical form: addresses strictly rising, no cell holds `0x00` (log 5). -/
abbrev Memory.wf (m : Memory) : Prop := m.Pairwise (fun c d => c.1 < d.1) ∧ ∀ c ∈ m, c.2 ≠ 0x00#8

/-- Every cell lies below address `n`: the buffer has `n` bytes (10_state.md R23, R24). -/
abbrev Memory.within (m : Memory) (n : Nat) : Prop := ∀ c ∈ m, c.1 < n

/-! ### Ends of a command -/

/-- `raise Error(code)`: `STAT.ERR <- code`, nothing else is written, and control goes nowhere: the block is ready for
the next transaction (60_exceptions.md R123). There is no return from it (R124). -/
def raiseError (e : ErrCode) (s : State) : Host.Outcome State Fault Refusal := .next (setErr e s)

/-- A command completes: `STAT.ERR <- E_NONE` (60_exceptions.md R120). -/
def complete (s : State) : Host.Outcome State Fault Refusal := .next (setErr .none s)

/-! ### Responses -/

/-- The interface answers the transaction in progress (20_memory.md R42; log 3). -/
def respond (r : Response) (s : State) : State := { s with responses := s.responses ++ [r] }

/-- The answer to a read: its value, or `BusError` with no effect (20_memory.md R42, R45). -/
def answerRead (x : Except BusRefusal Word) (s : State) : Host.Outcome State Fault Refusal :=
  match x with
  | .ok v => .next (respond (.data v) s)
  | .error _ => .next (respond .busError s)

/-- The answer to a write: its effect and `Ok`, or `BusError` with no effect (20_memory.md R42, R45). -/
def answerWrite (x : Except BusRefusal State) (s : State) : Host.Outcome State Fault Refusal :=
  match x with
  | .ok t => .next (respond .ok t)
  | .error _ => .next (respond .busError s)

end Sys2Proof.Machine
end

