-- ==== Sys2Proof/Machine/Operands.lean ====
section
/-! DEFINITION. Sys2Proof/Machine/Operands.lean: byte order (00_scope.md R7; 20_memory.md R44) and the operands of the
commands: the wire fields (30_encoding.md R60 to R62, R65) and the payload (10_state.md R24). -/

namespace Sys2Proof.Machine

/-! ### Big-endian bytes -/

/-- `be32(v)`: the bytes `v[31:24]`, `v[23:16]`, `v[15:8]`, `v[7:0]` (00_scope.md R7). -/
def be32 (v : Word) : List Byte :=
  [v.extractLsb' 24 8, v.extractLsb' 16 8, v.extractLsb' 8 8, v.extractLsb' 0 8]

/-- `be64(v)`: the same for 8 bytes, `v[63:56]` first (00_scope.md R7). -/
def be64 (v : DWord) : List Byte :=
  [v.extractLsb' 56 8, v.extractLsb' 48 8, v.extractLsb' 40 8, v.extractLsb' 32 8,
   v.extractLsb' 24 8, v.extractLsb' 16 8, v.extractLsb' 8 8, v.extractLsb' 0 8]

/-- `rd_be32(B, o)`: the bytes of `B[o:o+4]` joined, `B[o]` most significant (00_scope.md R7). -/
def rdBe32 (m : Memory) (o : Nat) : Word :=
  m.read o ++ m.read (o + 1) ++ m.read (o + 2) ++ m.read (o + 3)

/-- `rd_be64(B, o)`: the bytes of `B[o:o+8]` joined, `B[o]` most significant (00_scope.md R7). -/
def rdBe64 (m : Memory) (o : Nat) : DWord := rdBe32 m o ++ rdBe32 m (o + 4)

/-! ### Operands -/

/-- The stored checksum of the buffer, all 8 bytes (40_checksum.md R84). -/
def storedChecksum (s : State) : DWord := rdBe64 s.buf OFF_CHECKSUM

/-- The `sequence` field of the buffer (30_encoding.md R65). -/
def fieldSequence (s : State) : Word := rdBe32 s.buf OFF_SEQUENCE

/-- The `kind` or `status` field of the buffer (30_encoding.md R65). -/
def fieldDisc (s : State) : Word := rdBe32 s.buf OFF_DISC

/-- The `length` field of the buffer (30_encoding.md R65). -/
def fieldLength (s : State) : Word := rdBe32 s.buf OFF_LENGTH

/-- `PAY[0 : LEN]`, the payload `ENC_FRAME` copies (10_state.md R15, R24). -/
def payload (s : State) : List Byte := s.pay.readBytes 0 s.len.toNat

/-- `BUF[20 : 20+LEN]`, the payload slice of a decoded Frame (43_decode.md R114). -/
def payloadSlice (s : State) : List Byte := s.buf.readBytes OFF_CONTENT s.len.toNat

/-- `DISC = 1 or DISC = 2`, the legal codes of both `kind` and `status`, all 32 bits compared (30_encoding.md R66;
40_checksum.md R86). -/
def legalDisc (d : Word) : Bool := d = 1#32 || d = 2#32

end Sys2Proof.Machine
end

