-- ==== Sys2Proof/Machine/Checksum.lean ====
section
/-! DEFINITION. Sys2Proof/Machine/Checksum.lean: `crc32`, `widen` and `checksum` (40_checksum.md R80, R82, R83; log 10). -/

namespace Sys2Proof.Machine

/-- `k r`. Matching on the number first makes Lean's kernel compute `r` before it goes on, so that a long checksum can
be evaluated; `Laws/Checksum.lean` proves that this is all it is. -/
def strictly {α : Type} (r : Word) (k : Word → α) : α :=
  match r.toNat with
  | 0 => k 0#32
  | n + 1 => k (BitVec.ofNat 32 (n + 1))

/-- One of the eight repetitions: a logical shift right, and the constant `0xEDB88320` when bit 0 was 1 (40_checksum.md
R80). -/
def crcBit (r : Word) : Word := if r.getLsbD 0 then (r >>> 1) ^^^ 0xEDB88320#32 else r >>> 1

/-- `crcBit` repeated. -/
def crcBits : Nat → Word → Word
  | 0, r => r
  | n + 1, r => strictly (crcBit r) (crcBits n)

/-- One byte enters at bits 7:0, and eight repetitions follow (40_checksum.md R80). -/
def crcByte (r : Word) (b : Byte) : Word := crcBits 8 (r ^^^ b.setWidth 32)

/-- The bytes in ascending order (40_checksum.md R80). -/
def crcBytes : List Byte → Word → Word
  | [], r => r
  | b :: bs, r => strictly (crcByte r b) (crcBytes bs)

/-- `crc32(M)`: start value and final `xor` are `0xFFFFFFFF` (40_checksum.md R80). -/
def crc32 (bs : List Byte) : Word := crcBytes bs 0xFFFFFFFF#32 ^^^ 0xFFFFFFFF#32

/-- `widen(c)`: zero-extension to 64 bits (40_checksum.md R82). -/
def widen (c : Word) : DWord := 0#32 ++ c

/-- `checksum(B, n) = widen(crc32(B[8:n]))` (40_checksum.md R83). -/
def checksum (m : Memory) (n : Nat) : DWord := widen (crc32 (m.readBytes COV (n - COV)))

end Sys2Proof.Machine
end

