-- ==== Sys2Proof/Machine/Encode.lean ====
section
/-! DEFINITION. Sys2Proof/Machine/Encode.lean: the family of encode commands (41_encode.md). -/

namespace Sys2Proof.Machine

/-- The fields both formats share: the zeroed checksum placeholder, `sequence` and the discriminator (41_encode.md R90,
R91; 30_encoding.md R62). -/
def putCommonFields (s : State) (m : Memory) : Memory :=
  ((m.writeBytes OFF_CHECKSUM (be64 0#64)).writeBytes OFF_SEQUENCE (be32 s.seq)).writeBytes OFF_DISC (be32 s.disc)

/-- `BUF[20 : 20+LEN] <- PAY[0 : LEN]` and `BUF[20+LEN : F] <- 00 ... 00` (41_encode.md R90; 30_encoding.md R64). -/
def putContent (s : State) (m : Memory) : Memory :=
  (m.writeBytes OFF_CONTENT (payload s)).writeBytes (OFF_CONTENT + s.len.toNat)
    (List.replicate (s.cfg.cap - s.len.toNat) 0x00#8)

/-- The end of both encode commands, `n` the size of what was built: the checksum of `BUF[8:n]` goes into `BUF[0:8]` and
`CSUM`, `BUFLEN <- n`, `VALID <- 0` (41_encode.md R90, R91; 40_checksum.md R84). -/
def sealBuffer (n : Nat) (m : Memory) (s : State) : State :=
  { s with
    buf := m.writeBytes OFF_CHECKSUM (be64 (checksum m n))
    buflen := BitVec.ofNat 32 n
    csum := checksum m n
    valid := false }

/-- `ENC_FRAME` (41_encode.md R90). -/
def execEncFrame (s : State) : Host.Outcome State Fault Refusal :=
  if s.cfg.cap < s.len.toNat then raiseError .tooLong s
  else if legalDisc s.disc = false then raiseError .disc s
  else complete (sealBuffer s.cfg.F (putContent s ((putCommonFields s s.buf).writeBytes OFF_LENGTH (be32 s.len))) s)

/-- `ENC_REPLY` (41_encode.md R91). -/
def execEncReply (s : State) : Host.Outcome State Fault Refusal :=
  if legalDisc s.disc = false then raiseError .disc s
  else complete (sealBuffer RSZ (putCommonFields s s.buf) s)

end Sys2Proof.Machine
end

