-- ==== Sys2Proof/Machine/Extract.lean ====
section
/-! DEFINITION. Sys2Proof/Machine/Extract.lean: the family of decode commands, which extract the wire fields
(43_decode.md). The discriminator is delivered raw (R112), and both are gated on `STAT.VALID` (R113). -/

namespace Sys2Proof.Machine

/-- `SEQ` and `DISC` take the fields both formats share (43_decode.md R110, R111). -/
def takeCommonFields (s : State) : State := { s with seq := fieldSequence s, disc := fieldDisc s }

/-- `DEC_FRAME` (43_decode.md R110). The subtraction of check 3 is made only once check 2 has shown `BUFLEN >= 20`. -/
def execDecFrame (s : State) : Host.Outcome State Fault Refusal :=
  if s.valid = false then raiseError .notVerified s
  else if s.buflen.toNat < MIN_FRAME then raiseError .short s
  else if s.buflen.toNat - HDR < (fieldLength s).toNat then raiseError .length s
  else complete { takeCommonFields s with len := fieldLength s }

/-- `DEC_REPLY` (43_decode.md R111). -/
def execDecReply (s : State) : Host.Outcome State Fault Refusal :=
  if s.valid = false then raiseError .notVerified s
  else if s.buflen.toNat < MIN_REPLY then raiseError .short s
  else complete (takeCommonFields s)

end Sys2Proof.Machine
end

