-- ==== Sys2Proof/Machine/Verify.lean ====
section
/-! DEFINITION. Sys2Proof/Machine/Verify.lean: the family of verify commands (42_verify.md). -/

namespace Sys2Proof.Machine

/-- The verify of both formats, `least` the minimum length. A shorter buffer is invalid and no byte of it is read;
otherwise the 64-bit checksum of `BUF[8:BUFLEN]` goes to `CSUM` and is compared with the stored one (42_verify.md R100,
R101; 40_checksum.md R84). -/
def verify (least : Nat) (s : State) : State :=
  if s.buflen.toNat < least then setValid false s
  else setValid (checksum s.buf s.buflen.toNat = storedChecksum s) { s with csum := checksum s.buf s.buflen.toNat }

/-- `VER_FRAME` (42_verify.md R100). -/
def execVerFrame (s : State) : Host.Outcome State Fault Refusal := complete (verify MIN_FRAME s)

/-- `VER_REPLY` (42_verify.md R101). -/
def execVerReply (s : State) : Host.Outcome State Fault Refusal := complete (verify MIN_REPLY s)

end Sys2Proof.Machine
end

