-- ==== Sys2Proof/Machine/Dispatch.lean ====
section
/-! DEFINITION. Sys2Proof/Machine/Dispatch.lean: one arm for each command of 30_encoding.md R70. -/

namespace Sys2Proof.Machine

def exec (i : Instr) (s : State) : Host.Outcome State Fault Refusal :=
  match i with
  -- encode commands (41_encode.md)
  | .encFrame => Sys2Proof.Machine.execEncFrame s
  | .encReply => Sys2Proof.Machine.execEncReply s
  -- verify commands (42_verify.md)
  | .verFrame => Sys2Proof.Machine.execVerFrame s
  | .verReply => Sys2Proof.Machine.execVerReply s
  -- decode commands (43_decode.md)
  | .decFrame => Sys2Proof.Machine.execDecFrame s
  | .decReply => Sys2Proof.Machine.execDecReply s

end Sys2Proof.Machine
end

