-- ==== Sys2Proof/Machine/Bus.lean ====
section
/-! DEFINITION. Sys2Proof/Machine/Bus.lean: the effect of each host transaction (20_memory.md R42, R45, R48;
10_state.md R30), a write of `CMD` and the command it performs included (10_state.md R21; 20_memory.md R49). -/

namespace Sys2Proof.Machine

/-- A write of the word `w` to `CMD`: the command it selects, completely, or `E_ILLEGAL_CMD` (10_state.md R21;
30_encoding.md R70, R72). -/
def runCommand (w : Word) (s : State) : Host.Outcome State Fault Refusal :=
  match decode w with
  | .ok i => exec i s
  | .error _ => raiseError .illegalCmd s

/-- `RegRead(r)` (10_state.md R30): `CMD` is refused (B3), every other register gives its 32-bit value. -/
def regRead (r : Reg) (s : State) : Except BusRefusal Word :=
  match r with
  | .cmd => .error .cmdRead
  | .stat => .ok (statWord s)
  | .seq => .ok s.seq
  | .disc => .ok s.disc
  | .len => .ok s.len
  | .buflen => .ok s.buflen
  | .csumHi => .ok (s.csum.extractLsb' 32 32)
  | .csumLo => .ok (s.csum.extractLsb' 0 32)
  | .fsize => .ok (BitVec.ofNat 32 s.cfg.F)

/-- A host write of `BUFLEN`: refused above `F` (B5), else stored, and `VALID` is cleared (10_state.md R16, R19). -/
def writeBuflen (v : Word) (s : State) : Except BusRefusal State :=
  if s.cfg.F < v.toNat then .error .buflenTooLarge else .ok (setValid false { s with buflen := v })

/-- `RegWrite(r, v)` (10_state.md R30). A write of `CMD` is never refused (20_memory.md R45); its response does not
depend on the command's result (60_exceptions.md R121, R123; log 3). -/
def regWrite (r : Reg) (v : Word) (s : State) : Host.Outcome State Fault Refusal :=
  match r with
  | .cmd => runCommand v (respond .ok s)
  | .stat => answerWrite (.error .readOnly) s
  | .seq => answerWrite (.ok { s with seq := v }) s
  | .disc => answerWrite (.ok { s with disc := v }) s
  | .len => answerWrite (.ok { s with len := v }) s
  | .buflen => answerWrite (writeBuflen v s) s
  | .csumHi => answerWrite (.error .readOnly) s
  | .csumLo => answerWrite (.error .readOnly) s
  | .fsize => answerWrite (.error .readOnly) s

/-- `BufRead(a)`: `BUF[a]` in bits 7:0, or refused past the end (20_memory.md R42, R45 B6, R47). -/
def bufRead (a : Offset) (s : State) : Except BusRefusal Word :=
  if a.toNat < s.cfg.F then .ok ((s.buf.read a.toNat).setWidth 32) else .error .outsideBuffer

/-- `BufWrite(a, b)`: `BUF[a] <- b` and `VALID <- 0`, or refused past the end (20_memory.md R42, R45 B6; 10_state.md
R19). -/
def bufWrite (a : Offset) (b : Byte) (s : State) : Except BusRefusal State :=
  if a.toNat < s.cfg.F then .ok (setValid false { s with buf := s.buf.write a.toNat b }) else .error .outsideBuffer

/-- `PayRead(a)`: `PAY[a]` in bits 7:0, or refused past the end (20_memory.md R42, R45 B6, R47). -/
def payRead (a : Offset) (s : State) : Except BusRefusal Word :=
  if a.toNat < s.cfg.cap then .ok ((s.pay.read a.toNat).setWidth 32) else .error .outsideBuffer

/-- `PayWrite(a, b)`: `PAY[a] <- b`, or refused past the end (20_memory.md R42, R45 B6). -/
def payWrite (a : Offset) (b : Byte) (s : State) : Except BusRefusal State :=
  if a.toNat < s.cfg.cap then .ok { s with pay := s.pay.write a.toNat b } else .error .outsideBuffer

/-- One transaction, atomically: its effect and its response (20_memory.md R42, R49). -/
def perform (t : Transaction) (s : State) : Host.Outcome State Fault Refusal :=
  match t with
  | .regRead r => answerRead (regRead r s) s
  | .regWrite r v => regWrite r v s
  | .bufRead a => answerRead (bufRead a s) s
  | .bufWrite a b => answerWrite (bufWrite a b s) s
  | .payRead a => answerRead (payRead a s) s
  | .payWrite a b => answerWrite (payWrite a b s) s

/-- One bus request: the transaction it is, or `BusError` (20_memory.md R41, R43, R45). -/
def serve (r : BusReq) (s : State) : Host.Outcome State Fault Refusal :=
  match decodeBus r with
  | .ok t => perform t s
  | .error _ => .next (respond .busError s)

/-- The reset event: the whole state of the block becomes the reset state; the parameter `F` stays (70_reset_and_hazards.md
R150, R151). The host's script and its record of responses are outside the block and stay (logs 2, 3, 8). -/
def resetBlock (s : State) : State :=
  { State.resetOf s.cfg with pending := s.pending, responses := s.responses }

/-- One event: a request is served; a reset, alone or during a request, resets the block, and the abandoned request gets
no response (70_reset_and_hazards.md R150, R151); a broken handshake is a fault (log 7). -/
def handle (e : HostEvent) (s : State) : Host.Outcome State Fault Refusal :=
  match e with
  | .req r => serve r s
  | .reset => .next (resetBlock s)
  | .resetDuring _ => .next (resetBlock s)
  | .breaksHandshake => .fault .brokenHandshake

end Sys2Proof.Machine
end

