-- ==== Sys2Proof/Machine/Step.lean ====
section
/-! DEFINITION. Sys2Proof/Machine/Step.lean: one step of the machine, and where a step finds its next command (logs 2, 4). -/

namespace Sys2Proof.Machine

/-- One step: the oldest pending event is taken and handled, atomically (20_memory.md R49, R50). With nothing pending
the block waits and nothing changes (70_reset_and_hazards.md R161; log 2). -/
def step (s : State) : Host.Outcome State Fault Refusal :=
  match s.pending with
  | [] => .next s
  | e :: rest => handle e { s with pending := rest }

/-- `s` with a write of the opcode-table word `w` to `CMD` as the next pending event, so that the next step runs exactly
that command (10_state.md R12, R21; log 4). -/
def State.withFetchWord (s : State) (nbits w : Nat) : State :=
  { s with pending := .req (cmdWrite (tableWord nbits w)) :: s.pending }

end Sys2Proof.Machine
end

