-- ==== Sys2Proof/Machine/Script.lean ====
section
/-! DEFINITION. Sys2Proof/Machine/Script.lean: runs of host scripts (70_reset_and_hazards.md R161; 30_encoding.md R75,
R76). -/

namespace Sys2Proof.Machine

/-- Go on with `k` from a next state; a fault or a refusal ends the run. -/
def andThen {α β : Type} (x : Host.Outcome α Fault Refusal) (k : α → Host.Outcome β Fault Refusal) :
    Host.Outcome β Fault Refusal :=
  match x with
  | .next s => k s
  | .fault r => .fault r
  | .refused r => .refused r

/-- A run: the events one after the other, each from the state the one before left (70_reset_and_hazards.md R161;
20_memory.md R50). -/
def runEvents : List HostEvent → State → Host.Outcome State Fault Refusal
  | [], s => .next s
  | e :: es, s => andThen (handle e s) (runEvents es)

/-- The run of a host script (30_encoding.md R75). -/
def runScript (sts : List Stmt) (s : State) : Host.Outcome State Fault Refusal := runEvents (sts.map stmtEvent) s

/-- The value the last of the answers carries; 0 if it carries none, which no `rd LEN` gives (log 11). -/
def lastValue (answers : List Response) : Nat :=
  match answers.getLast? with
  | some (.data v) => v.toNat
  | _ => 0

/-- The rest of an expansion, once the statements of `expand` have got their `answers`: the `br 20` to `br 20+LEN-1` of
`decodeFrame`, `LEN` the value its `rd LEN` returned (30_encoding.md R76). -/
def expandAfter (p : Pseudo) (answers : List Response) : List Stmt :=
  match p with
  | .decodeFrame => brFrom OFF_CONTENT (lastValue answers)
  | .loadbuf _ | .loadpay _ | .readbuf _ | .encode _ _ _ | .encodeReply _ _ | .verifyFrame | .verifyReply
  | .decodeReply => []

/-- The run of a pseudo-operation: its whole expansion (30_encoding.md R76). -/
def runPseudo (p : Pseudo) (s : State) : Host.Outcome State Fault Refusal :=
  andThen (runScript (expand p) s) fun t => runScript (expandAfter p (t.responses.drop s.responses.length)) t

end Sys2Proof.Machine
end

