-- ==== Sys2Proof/Machine/Policy.lean ====
section
/-! DEFINITION. Sys2Proof/Machine/Policy.lean: the parameters of the two host programs, which the spec leaves open
(60_exceptions.md R145; 92_eei_decisions.md D30, D31; 93_implementation_defined.md U2, U11, U20, U21; logs 14, 17,
18, 19), and the numbers the two hosts count with. No rule of the block depends on them. -/

namespace Sys2Proof.Machine

/-- What the receiver does with a verified Frame it cannot use (60_exceptions.md R145 item 2). -/
inductive OnBadFrame where
  /-- Recommended: reply Nak carrying `expectedSequence`. -/
  | asInvalid
  | drop
deriving DecidableEq, Repr

/-- The open parameters of a host. The defaults of the first four are the recommendations of 60_exceptions.md R145, their
other values the model's (log 14); the defaults of `wrapsSequence` and `signedSequence` are the model's choice (log 17); the
last two are said beside them. -/
structure HostPolicy where
  /-- `HOST_ON_RESERVED_STATUS`: a verified Reply whose status is neither 1 nor 2 is answered by a resend;
  otherwise it is passed over. -/
  resendOnReservedStatus : Bool := true
  /-- `HOST_ON_DECODE_ERROR`: a verified Frame that `DEC_FRAME` refuses. -/
  onDecodeError : OnBadFrame := .asInvalid
  /-- Whether a reserved `kind` counts as such a Frame too (R145 item 2); the document's receiver never looks at `kind`
  (43_decode.md R112). -/
  checksKind : Bool := true
  /-- `HOST_ON_LONG_DATAGRAM`: a datagram longer than `F` is dropped silently; otherwise it is answered like an invalid
  one. -/
  dropsLongDatagram : Bool := true
  /-- `HOST_SEQ_ARITH`: whether a host's counters are 32-bit words that wrap, so that `expectedSequence - 1` at 0 is the
  number of `0xFFFFFFFF`, or unbounded integers (R145 item 4; 93_implementation_defined.md U21). 92_eei_decisions.md D30
  recommends neither: the default is the model's choice (DESIGN CHOICE, log 17). -/
  wrapsSequence : Bool := true
  /-- The sign of `sequence`: whether a pattern with bit 31 set denotes a negative number (R145 item 5; U21). The spec
  recommends neither: the default is the model's choice (DESIGN CHOICE, log 17). -/
  signedSequence : Bool := false
  /-- `HOST_RETX_TIMEOUT` in milliseconds; the model has no time, so nothing depends on it. The default is the document's
  example (R137, D31), which the spec leaves open (DESIGN CHOICE, log 17). -/
  retxTimeout : Nat := 100
  /-- `HOST_RETRY_LIMIT`: no limit by default, as 93_implementation_defined.md U20 has it. What it counts is the model's
  choice: the resends of one Frame, whatever caused them (DESIGN CHOICE, log 19). -/
  retryLimit : Option Nat := none
deriving DecidableEq, Repr

/-! ### Sequence numbers -/

/-- The number a 32-bit `sequence` pattern denotes to the host (60_exceptions.md R145 item 5; 10_state.md R13; log 18). -/
def seqNumber (p : HostPolicy) (w : Word) : Int := if p.signedSequence = true then w.toInt else w.toNat

/-- The pattern a host writes to `SEQ` for its number `n`, the low 32 bits (log 18). -/
def seqPattern (n : Int) : Word := BitVec.ofInt 32 n

/-- A result of the host's arithmetic as its counter holds it: wrapped to 32 bits or kept (60_exceptions.md R145 item 4). -/
def seqResult (p : HostPolicy) (n : Int) : Int := if p.wrapsSequence = true then seqNumber p (seqPattern n) else n

/-- "incrementing by 1" (60_exceptions.md R136, R142 step 3). -/
def seqNext (p : HostPolicy) (n : Int) : Int := seqResult p (n + 1)

/-- `expectedSequence - 1` (60_exceptions.md R142 step 4). -/
def seqPrev (p : HostPolicy) (n : Int) : Int := seqResult p (n - 1)

end Sys2Proof.Machine
end

