-- ==== Sys2Proof/Machine/Receiver.lean ====
section
/-! DEFINITION. Sys2Proof/Machine/Receiver.lean: the receiver as a host of the block (60_exceptions.md R140 to R143). It
is the environment of the machine, no part of a step; the spec's scope leaves it to a host model (00_scope.md R4). It reads
registers and buffer bytes out of the state directly, since a read changes nothing (20_memory.md R48; log 14). -/

namespace Sys2Proof.Machine

/-- The receiver's own state (60_exceptions.md R140): `expectedSequence`; the sink, as the name it was opened under and
the bytes written to it, opened lazily; and whether a sink failure has ended the transfer (R143), which the model never
undoes (DESIGN CHOICE, log 15). `expectedSequence` is a number, counted as the policy says (R145 items 4 and 5; log 18). -/
structure Receiver where
  expected : Int := 0
  sink     : Option (List Byte × List Byte) := none
  failed   : Bool := false
deriving DecidableEq, Repr

/-- What one datagram leaves: the receiver, the Reply to send if any, and the block. -/
structure Received where
  receiver : Receiver
  reply    : Option (List Byte)
  block    : State
deriving DecidableEq, Repr

/-- `BUF[0:16]`, the Reply the host reads out after `ENC_REPLY` (60_exceptions.md R142). -/
def replyBytes (s : State) : List Byte := s.buf.readBytes 0 RSZ

/-- Reply `Nak` carrying `expectedSequence`, no other change (60_exceptions.md R142 steps 2 and 5). -/
def receiverNak (r : Receiver) (s : State) : Host.Outcome Received Fault Refusal :=
  andThen (runScript (expand (.encodeReply (seqPattern r.expected).toNat S_NAK.toNat)) s) fun t => .next ⟨r, some (replyBytes t), t⟩

/-- Reply `Ack` carrying the decoded `sequence`, which `SEQ` already holds (60_exceptions.md R142 steps 3 and 4). -/
def receiverAck (r : Receiver) (s : State) : Host.Outcome Received Fault Refusal :=
  andThen (runScript [.wr .disc S_ACK.toNat, .cmd .encReply] s) fun t => .next ⟨r, some (replyBytes t), t⟩

/-- The payload of the expected unit reaches the sink: unit 0 names it, every later one is the next chunk; then
`expectedSequence` is incremented, in the policy's arithmetic (60_exceptions.md R142 step 3). A unit 0 that comes after a
wrap is a name again (DESIGN CHOICE, log 18; the spec says only that no transfer wraps around, R145 item 5). -/
def receiverDeliver (p : HostPolicy) (r : Receiver) (s : State) : Receiver :=
  { r with
    sink := if s.seq = 0#32 then some (payloadSlice s, []) else r.sink.map fun c => (c.1, c.2 ++ payloadSlice s)
    expected := seqNext p r.expected }

/-- `sequence == expectedSequence - 1` (60_exceptions.md R142 step 4), both as the policy's
numbers (R145 items 4 and 5; log 18). -/
def isDuplicate (p : HostPolicy) (r : Receiver) (seq : Word) : Bool :=
  seqNumber p seq = seqPrev p r.expected

/-- A verified Frame the receiver cannot use (60_exceptions.md R145 item 2). -/
def receiverBadFrame (p : HostPolicy) (r : Receiver) (s : State) : Host.Outcome Received Fault Refusal :=
  match p.onDecodeError with
  | .asInvalid => receiverNak r s
  | .drop => .next ⟨r, none, s⟩

/-- Steps 3 to 5 of 60_exceptions.md R142, after `DEC_FRAME`. A failing sink ends the transfer (R143): no Reply is sent and
`expectedSequence` stays (DESIGN CHOICE, log 15). -/
def receiverJudge (p : HostPolicy) (sinkOk : Bool) (r : Receiver) (s : State) : Host.Outcome Received Fault Refusal :=
  if s.err ≠ errCode .none then receiverBadFrame p r s
  else if (p.checksKind && !legalDisc s.disc) = true then receiverBadFrame p r s
  else if seqNumber p s.seq = r.expected then
    if sinkOk = true then receiverAck (receiverDeliver p r s) s else .next ⟨{ r with failed := true }, none, s⟩
  else if isDuplicate p r s.seq = true then receiverAck r s
  else receiverNak r s

/-- Step 2 of 60_exceptions.md R142, after `VER_FRAME`. -/
def receiverVerified (p : HostPolicy) (sinkOk : Bool) (r : Receiver) (s : State) : Host.Outcome Received Fault Refusal :=
  if s.valid = false then receiverNak r s
  else andThen (runScript [.cmd .decFrame] s) (receiverJudge p sinkOk r)

/-- The receiver handles the datagram `d`: too short is dropped before the block is used (60_exceptions.md R141), too long
cannot be loaded (R145 item 3), and the rest is loaded and verified (R142). `sinkOk` says whether the file sink takes the
write (R144). What a receiver does after a sink failure is the model's choice: R143 says only that the current transfer's
handling is aborted, and the model silently drops every later datagram, for good, without touching the block (DESIGN
CHOICE, log 15). -/
def receive (p : HostPolicy) (sinkOk : Bool) (d : List Byte) (r : Receiver) (s : State) :
    Host.Outcome Received Fault Refusal :=
  if r.failed = true then .next ⟨r, none, s⟩
  else if d.length < MIN_FRAME then .next ⟨r, none, s⟩
  else if s.cfg.F < d.length then
    if p.dropsLongDatagram = true then .next ⟨r, none, s⟩ else receiverNak r s
  else andThen (runScript (expand (.loadbuf d) ++ [.cmd .verFrame]) s) (receiverVerified p sinkOk r)

end Sys2Proof.Machine
end

