-- ==== Sys2Proof/Machine/Sender.lean ====
section
/-! DEFINITION. Sys2Proof/Machine/Sender.lean: the sender as a host of the block (60_exceptions.md R135 to R139). It is the
environment of the machine, no part of a step (00_scope.md R4; log 14). -/

namespace Sys2Proof.Machine

/-- The sender's states (60_exceptions.md R135); `gaveUp` is reached only under a retry ceiling (R147; U20). -/
inductive SenderPhase where
  | awaitingTransmit | awaitingAck | done | gaveUp
deriving DecidableEq, Repr

/-- The sender's own state: the units still to send, each a `kind` and a payload (60_exceptions.md R136), the next
sequence number, and its own copy of the outstanding Frame, which a retransmission repeats unchanged (R137).
That it keeps a copy, and does not encode again from restored operands, is one of the two ways R137 and
70_reset_and_hazards.md R156(b) allow (DESIGN CHOICE, log 20). Sequence numbers are counted as the policy says (R145 items
4 and 5; log 18). `retries` is the number of resends of the outstanding Frame (log 19). -/
structure Sender where
  phase   : SenderPhase := .awaitingTransmit
  units   : List (Word × List Byte)
  nextSeq : Int := 0
  sentSeq : Int := 0
  frame   : List Byte := []
  retries : Nat := 0
deriving DecidableEq, Repr

/-- What one action of the sender leaves: the sender, the datagram to send if any, and the block. -/
structure Sent where
  sender   : Sender
  datagram : Option (List Byte)
  block    : State
deriving DecidableEq, Repr

/-- What the sender waits for (60_exceptions.md R137). -/
inductive SenderEvent where
  | timerExpiry
  | reply (bytes : List Byte)
deriving DecidableEq, Repr

/-- The sender at the start of a transfer: the name unit, then each chunk in file order (60_exceptions.md R136, R144). -/
def senderStart (name : List Byte) (chunks : List (List Byte)) : Sender :=
  { units := (K_NAME, name) :: chunks.map fun c => (K_DATA, c) }

/-- Encode and send the next unit, and wait for its Reply; with no unit left the transfer is complete (60_exceptions.md
R136, R138). While a Reply is awaited nothing is sent (R139). The next sequence number is one more in the policy's
arithmetic; the low 32 bits go to `SEQ` (log 18). The Frame's bytes are copied out, and the count of its resends starts at
0 (DESIGN CHOICE, logs 19, 20). -/
def senderTransmit (p : HostPolicy) (sd : Sender) (s : State) : Host.Outcome Sent Fault Refusal :=
  match sd.phase, sd.units with
  | .awaitingTransmit, [] => .next ⟨{ sd with phase := .done }, none, s⟩
  | .awaitingTransmit, u :: rest =>
    andThen (runScript (expand (.encode (seqPattern sd.nextSeq).toNat u.1.toNat u.2)) s) fun t =>
      if t.err ≠ errCode .none then .next ⟨sd, none, t⟩
      else
        .next ⟨{ sd with
                 phase := .awaitingAck, units := rest, nextSeq := seqNext p sd.nextSeq, sentSeq := sd.nextSeq,
                 frame := t.buf.readBytes 0 t.cfg.F, retries := 0 },
               some (t.buf.readBytes 0 t.cfg.F), t⟩
  | _, _ => .next ⟨sd, none, s⟩

/-- Resend the identical Frame and stay in `awaitingAck`, without limit unless the policy sets one (60_exceptions.md R137,
R147). The limit bounds the resends of one Frame, of every cause, a timer expiry, a corrupt, stale or misdirected Reply and a
Nak alike: the resend after the last allowed one becomes `gaveUp` (DESIGN CHOICE, log 19). The copy is sent, so the block
is not used (DESIGN CHOICE, log 20). -/
def senderResend (p : HostPolicy) (sd : Sender) (s : State) : Host.Outcome Sent Fault Refusal :=
  if p.retryLimit.any (fun n => n ≤ sd.retries) = true then .next ⟨{ sd with phase := .gaveUp }, none, s⟩
  else .next ⟨{ sd with retries := sd.retries + 1 }, some sd.frame, s⟩

/-- The last three rows of the table of 60_exceptions.md R137, after `DEC_REPLY`; a reserved status is R145 item 1. -/
def senderJudge (p : HostPolicy) (sd : Sender) (s : State) : Host.Outcome Sent Fault Refusal :=
  if s.disc = S_ACK then
    if seqNumber p s.seq = sd.sentSeq then .next ⟨{ sd with phase := .awaitingTransmit }, none, s⟩ else senderResend p sd s
  else if s.disc = S_NAK then senderResend p sd s
  else if p.resendOnReservedStatus = true then senderResend p sd s
  else .next ⟨sd, none, s⟩

/-- The Reply that was loaded and put through `VER_REPLY` (60_exceptions.md R137). -/
def senderVerified (p : HostPolicy) (sd : Sender) (s : State) : Host.Outcome Sent Fault Refusal :=
  if s.valid = false then senderResend p sd s else andThen (runScript [.cmd .decReply] s) (senderJudge p sd)

/-- What the sender does on the event it waits for (60_exceptions.md R137). A Reply longer than `F` cannot be loaded (R145
item 3). A Reply shorter than 16 bytes is loaded like any other, found `VALID = 0`, and answered by a resend at once; R126
speaks of dropping a datagram below the minimum header, and R141 gives that test to the receiver only (DESIGN CHOICE, log
16). -/
def senderAwait (p : HostPolicy) (e : SenderEvent) (sd : Sender) (s : State) : Host.Outcome Sent Fault Refusal :=
  match sd.phase, e with
  | .awaitingAck, .timerExpiry => senderResend p sd s
  | .awaitingAck, .reply d =>
    if s.cfg.F < d.length then
      if p.dropsLongDatagram = true then .next ⟨sd, none, s⟩ else senderResend p sd s
    else andThen (runScript (expand (.loadbuf d) ++ [.cmd .verReply]) s) (senderVerified p sd)
  | _, _ => .next ⟨sd, none, s⟩

end Sys2Proof.Machine
end

