-- ==== Sys2Proof/Safety.lean ====
section
/-! DEFINITION. Sys2Proof/Safety.lean: the invariants of the block (10_state.md R25) and what counts as a run that went
wrong (60_exceptions.md R125). -/

namespace Sys2Proof.Machine

/-- The invariants of 10_state.md R25, and the canonical form of the two buffers (log 5). R25(c), the reserved bits of
`STAT`, holds of every state by `statWord`. -/
structure State.Inv (s : State) : Prop where
  /-- R25(a). -/
  buflen_le : s.buflen.toNat ≤ s.cfg.F
  /-- R25(b). -/
  err_le : s.err.toNat ≤ 6
  /-- R25(d). -/
  csum_hi : s.csum.extractLsb' 32 32 = 0#32
  /-- R25(e), the length. -/
  valid_len : s.valid = true → 16 ≤ s.buflen.toNat
  /-- R25(e), the checksum. -/
  valid_sum : s.valid = true → storedChecksum s = checksum s.buf s.buflen.toNat
  buf_wf : s.buf.wf
  buf_within : s.buf.within s.cfg.F
  pay_wf : s.pay.wf
  pay_within : s.pay.within s.cfg.cap

/-- Whether an event is a write of `CMD`. -/
def isCmdWrite : HostEvent → Bool
  | .req r =>
    match decodeBus r with
    | .ok (.regWrite .cmd _) => true
    | _ => false
  | _ => false

/-- An event went wrong: the transaction returned `BusError`, or it was a `CMD` write that left `STAT.ERR` non-zero
(60_exceptions.md R125). -/
def wentWrong (e : HostEvent) (s t : State) : Bool :=
  t.responses = s.responses ++ [.busError] || (isCmdWrite e && t.err ≠ errCode .none)

/-- A run in which nothing went wrong and nothing stopped (60_exceptions.md R125). -/
def safeRun : List HostEvent → State → Bool
  | [], _ => true
  | e :: es, s =>
    match handle e s with
    | .next t => !wentWrong e s t && safeRun es t
    | .fault _ => false
    | .refused _ => false

end Sys2Proof.Machine
end

