-- ==== Sys2Proof/Certificates/Slice0/Obligations.lean ====
section
/-! DEFINITION. Sys2Proof/Certificates/Slice0/Obligations.lean: the statements about the model, each from the numbered rules
of the spec. Nothing is proved here. -/

open Sys2Proof Sys2Proof.Machine

namespace Sys2Proof.Claims

/-- The bus form of a write of the word `w` to `CMD`: (1, 32, `0x00000`, `w`) (30_encoding.md R75). -/
def cmdRequest (w : Word) : BusReq := ⟨true, .word, 0x00000#18, w⟩

/-- A 32-bit read at the bus address `a`; the data of a read is not used. -/
def wordRead (a : BusAddr) (d : Word) : BusReq := ⟨false, .word, a, d⟩

/-- A 32-bit write of `v` at the bus address `a`. -/
def wordWrite (a : BusAddr) (v : Word) : BusReq := ⟨true, .word, a, v⟩

/-- An 8-bit read at the bus address `a`. -/
def byteRead (a : BusAddr) (d : Word) : BusReq := ⟨false, .byte, a, d⟩

/-- An 8-bit write at the bus address `a` with the data word `d`. -/
def byteWrite (a : BusAddr) (d : Word) : BusReq := ⟨true, .byte, a, d⟩

/-- Cases B1 to B6 of 20_memory.md R45, written on the numbers of the request alone. -/
def Refused (s : State) (r : BusReq) : Prop :=
  -- B1 and B6: nothing is mapped at the address
  (0x24 ≤ r.addr.toNat ∧ r.addr.toNat ≤ 0x0FFFF) ∨
  (0x10000 + s.cfg.F ≤ r.addr.toNat ∧ r.addr.toNat ≤ 0x1FFFF) ∨
  (0x20000 + (s.cfg.F - 20) ≤ r.addr.toNat ∧ r.addr.toNat ≤ 0x2FFFF) ∨
  0x30000 ≤ r.addr.toNat ∨
  -- B2: a width the window does not accept, or a misaligned 32-bit access
  (r.addr.toNat ≤ 0x0FFFF ∧ r.size = .byte) ∨
  (0x10000 ≤ r.addr.toNat ∧ r.size = .word) ∨
  (r.size = .word ∧ r.addr.toNat % 4 ≠ 0) ∨
  -- B3: a read of CMD
  (r.write = false ∧ r.addr.toNat = 0x00) ∨
  -- B4: a write of STAT, CSUM_HI, CSUM_LO or FSIZE
  (r.write = true ∧ (r.addr.toNat = 0x04 ∨ r.addr.toNat = 0x18 ∨ r.addr.toNat = 0x1C ∨ r.addr.toNat = 0x20)) ∨
  -- B5: a write of BUFLEN above F
  (r.write = true ∧ r.addr.toNat = 0x14 ∧ s.cfg.F < r.wdata.toNat)

/-- A request with the bits the bus ignores set to 0: the data of a read, bits 31:8 of an 8-bit write (20_memory.md R47). -/
def canonical (r : BusReq) : BusReq :=
  { r with
    wdata :=
      if r.write = false then 0#32
      else if r.size = .byte then (r.wdata.extractLsb' 0 8).setWidth 32
      else r.wdata }

/-- The checksum of the buffer bytes `[8:n]` (40_checksum.md R83), written out. -/
def sumOf (m : Memory) (n : Nat) : DWord := 0#32 ++ crc32 (m.readBytes 8 (n - 8))

/-- `DISC` is a legal code (30_encoding.md R66). -/
def LegalDisc (s : State) : Prop := s.disc = 1#32 ∨ s.disc = 2#32

end Sys2Proof.Claims

open Sys2Proof.Claims

/-! ### Reset -/

/-- 10_state.md R27: every piece of state after reset. -/
def Obligations.ResetLeavesTheSpecValues : Prop :=
  ∀ c : Config,
    (State.resetOf c).seq = 0x00000000#32 ∧ (State.resetOf c).disc = 0x00000000#32 ∧
    (State.resetOf c).len = 0x00000000#32 ∧ (State.resetOf c).buflen = 0x00000000#32 ∧
    (State.resetOf c).csum = 0x0000000000000000#64 ∧ (State.resetOf c).valid = false ∧
    (State.resetOf c).err = 0x00#8 ∧
    (∀ a, a < c.F → (State.resetOf c).buf.read a = 0x00#8) ∧
    (∀ a, a < c.F - 20 → (State.resetOf c).pay.read a = 0x00#8)

/-- 70_reset_and_hazards.md R150, R151: the reset event, alone or during a request, from any state. That the pending events
and the record of responses stay is the model's choice (log 8). -/
def Obligations.ResetEventRestoresTheResetState : Prop :=
  ∀ (s : State) (e : HostEvent) (rest : List HostEvent),
    s.pending = e :: rest → (e = .reset ∨ ∃ r, e = .resetDuring r) →
    step s = .next { State.resetOf s.cfg with pending := rest, responses := s.responses }

/-- 70_reset_and_hazards.md R153: the six commands straight after reset, for every `F`. -/
def Obligations.CommandsStraightAfterReset : Prop :=
  ∀ c : Config,
    exec .encFrame (State.resetOf c) = .next { State.resetOf c with err := 0x03#8 } ∧
    exec .encReply (State.resetOf c) = .next { State.resetOf c with err := 0x03#8 } ∧
    exec .verFrame (State.resetOf c) = .next (State.resetOf c) ∧
    exec .verReply (State.resetOf c) = .next (State.resetOf c) ∧
    exec .decFrame (State.resetOf c) = .next { State.resetOf c with err := 0x04#8 } ∧
    exec .decReply (State.resetOf c) = .next { State.resetOf c with err := 0x04#8 }

/-! ### Encodings and the step -/

/-- 30_encoding.md R70: the six words of the opcode map, and no other word, select the six commands. -/
def Obligations.OpcodeMapSelectsTheCommand : Prop :=
  ∀ w : Word,
    (decode w = .ok .encFrame ↔ w = 0x00000001#32) ∧ (decode w = .ok .encReply ↔ w = 0x00000002#32) ∧
    (decode w = .ok .verFrame ↔ w = 0x00000003#32) ∧ (decode w = .ok .verReply ↔ w = 0x00000004#32) ∧
    (decode w = .ok .decFrame ↔ w = 0x00000005#32) ∧ (decode w = .ok .decReply ↔ w = 0x00000006#32)

/-- 20_memory.md R41, R43, R47; 30_encoding.md R75: the bus form of every transaction decodes to that transaction, and a
request that decodes to a transaction is its bus form, but for the bits the bus ignores. -/
def Obligations.BusMapDecodesExactlyItsTransactions : Prop :=
  (∀ t : Transaction, decodeBus (encodeBus t) = .ok t) ∧
  (∀ (r : BusReq) (t : Transaction), decodeBus r = .ok t → canonical r = encodeBus t)

/-- 10_state.md R21; 20_memory.md R49: a step on a pending write of a command word to `CMD` is the command, on the state
from which that event has been taken and to which its response has been added; and `withFetchWord` places exactly such a
write. That the pending events and the response stand in the state is the model's choice (logs 2, 3), and so is the whole
second clause, what `decodeTableWord` and `withFetchWord` are (log 4). -/
def Obligations.StepRunsTheDecodedCommand : Prop :=
  (∀ (s : State) (w : Word) (rest : List HostEvent) (i : Instr),
    s.pending = .req (cmdRequest w) :: rest → decode w = .ok i →
    step s = exec i { s with pending := rest, responses := s.responses ++ [.ok] }) ∧
  (∀ (s : State) (nbits w : Nat) (i : Instr),
    decodeTableWord nbits w = some i →
    step (s.withFetchWord nbits w) = exec i { s with responses := s.responses ++ [.ok] })

/-- 30_encoding.md R72: every word outside the opcode map. -/
def Obligations.IllegalWordSetsOnlyErr : Prop :=
  ∀ (s : State) (w : Word) (rest : List HostEvent),
    s.pending = .req (cmdRequest w) :: rest →
    (w.extractLsb' 8 24 ≠ 0#24 ∨ w.extractLsb' 0 8 = 0#8 ∨ 7 ≤ (w.extractLsb' 0 8).toNat) →
    step s = .next { s with pending := rest, responses := s.responses ++ [.ok], err := 0x01#8 }

/-! ### The commands -/

/-- 41_encode.md R90: `ENC_FRAME`, its two errors and its success, whole. -/
def Obligations.EncFrameBuildsTheFrame : Prop :=
  ∀ s : State,
    (s.cfg.F - 20 < s.len.toNat → exec .encFrame s = .next { s with err := 0x02#8 }) ∧
    (s.len.toNat ≤ s.cfg.F - 20 → ¬ LegalDisc s → exec .encFrame s = .next { s with err := 0x03#8 }) ∧
    (s.len.toNat ≤ s.cfg.F - 20 → LegalDisc s →
      ∃ m : Memory,
        exec .encFrame s =
          .next { s with
            buf := m, buflen := BitVec.ofNat 32 s.cfg.F, csum := sumOf m s.cfg.F, valid := false, err := 0x00#8 } ∧
        m.readBytes 0 8 = be64 (sumOf m s.cfg.F) ∧
        m.readBytes 8 4 = be32 s.seq ∧
        m.readBytes 12 4 = be32 s.disc ∧
        m.readBytes 16 4 = be32 s.len ∧
        m.readBytes 20 s.len.toNat = s.pay.readBytes 0 s.len.toNat ∧
        (∀ a, 20 + s.len.toNat ≤ a → a < s.cfg.F → m.read a = 0x00#8) ∧
        (∀ a, s.cfg.F ≤ a → m.read a = s.buf.read a))

/-- 41_encode.md R91: `ENC_REPLY`, its error and its success, whole. -/
def Obligations.EncReplyBuildsTheReply : Prop :=
  ∀ s : State,
    (¬ LegalDisc s → exec .encReply s = .next { s with err := 0x03#8 }) ∧
    (LegalDisc s →
      ∃ m : Memory,
        exec .encReply s =
          .next { s with buf := m, buflen := 16#32, csum := sumOf m 16, valid := false, err := 0x00#8 } ∧
        m.readBytes 0 8 = be64 (sumOf m 16) ∧
        m.readBytes 8 4 = be32 s.seq ∧
        m.readBytes 12 4 = be32 s.disc ∧
        (∀ a, 16 ≤ a → m.read a = s.buf.read a))

/-- 42_verify.md R100: `VER_FRAME`, too short and long enough. -/
def Obligations.VerFrameComparesTheChecksum : Prop :=
  ∀ s : State,
    (s.buflen.toNat < 20 → exec .verFrame s = .next { s with valid := false, err := 0x00#8 }) ∧
    (20 ≤ s.buflen.toNat →
      exec .verFrame s =
        .next { s with
          csum := sumOf s.buf s.buflen.toNat,
          valid := decide (sumOf s.buf s.buflen.toNat = rdBe64 s.buf 0),
          err := 0x00#8 })

/-- 42_verify.md R101: `VER_REPLY`, too short and long enough. -/
def Obligations.VerReplyComparesTheChecksum : Prop :=
  ∀ s : State,
    (s.buflen.toNat < 16 → exec .verReply s = .next { s with valid := false, err := 0x00#8 }) ∧
    (16 ≤ s.buflen.toNat →
      exec .verReply s =
        .next { s with
          csum := sumOf s.buf s.buflen.toNat,
          valid := decide (sumOf s.buf s.buflen.toNat = rdBe64 s.buf 0),
          err := 0x00#8 })

/-- 42_verify.md R101, corner case c: from 20 bytes on the two verify commands are the same. -/
def Obligations.VerifyCommandsAgreeFromTwentyBytes : Prop :=
  ∀ s : State, 20 ≤ s.buflen.toNat → exec .verFrame s = exec .verReply s

/-- 43_decode.md R110: `DEC_FRAME`, its three errors in their order and its success, whole. -/
def Obligations.DecFrameExtractsTheFields : Prop :=
  ∀ s : State,
    (s.valid = false → exec .decFrame s = .next { s with err := 0x04#8 }) ∧
    (s.valid = true → s.buflen.toNat < 20 → exec .decFrame s = .next { s with err := 0x05#8 }) ∧
    (s.valid = true → 20 ≤ s.buflen.toNat → s.buflen.toNat - 20 < (rdBe32 s.buf 16).toNat →
      exec .decFrame s = .next { s with err := 0x06#8 }) ∧
    (s.valid = true → 20 ≤ s.buflen.toNat → (rdBe32 s.buf 16).toNat ≤ s.buflen.toNat - 20 →
      exec .decFrame s =
        .next { s with
          seq := rdBe32 s.buf 8, disc := rdBe32 s.buf 12, len := rdBe32 s.buf 16, err := 0x00#8 })

/-- 43_decode.md R111: `DEC_REPLY`, its two errors in their order and its success, whole. -/
def Obligations.DecReplyExtractsTheFields : Prop :=
  ∀ s : State,
    (s.valid = false → exec .decReply s = .next { s with err := 0x04#8 }) ∧
    (s.valid = true → s.buflen.toNat < 16 → exec .decReply s = .next { s with err := 0x05#8 }) ∧
    (s.valid = true → 16 ≤ s.buflen.toNat →
      exec .decReply s = .next { s with seq := rdBe32 s.buf 8, disc := rdBe32 s.buf 12, err := 0x00#8 })

/-- 43_decode.md R111, corner case a: check 2 of `DEC_REPLY` never fails where the invariants of 10_state.md R25 hold. -/
def Obligations.DecReplyNeverShortUnderTheInvariants : Prop :=
  ∀ s t : State, s.Inv → exec .decReply s = .next t → t.err ≠ 0x05#8

/-- 60_exceptions.md R120, R122: the code a `CMD` write leaves, the first failing check in the order of the tables. -/
def Obligations.FirstFailingCheckIsReported : Prop :=
  ∀ (w : Word) (s t : State), runCommand w s = .next t →
    t.err =
      match decode w with
      | .error _ => 0x01#8
      | .ok .encFrame =>
        if s.cfg.F - 20 < s.len.toNat then 0x02#8
        else if s.disc ≠ 1#32 ∧ s.disc ≠ 2#32 then 0x03#8 else 0x00#8
      | .ok .encReply => if s.disc ≠ 1#32 ∧ s.disc ≠ 2#32 then 0x03#8 else 0x00#8
      | .ok .verFrame => 0x00#8
      | .ok .verReply => 0x00#8
      | .ok .decFrame =>
        if s.valid = false then 0x04#8
        else if s.buflen.toNat < 20 then 0x05#8
        else if s.buflen.toNat - 20 < (rdBe32 s.buf 16).toNat then 0x06#8 else 0x00#8
      | .ok .decReply =>
        if s.valid = false then 0x04#8 else if s.buflen.toNat < 16 then 0x05#8 else 0x00#8

/-- 60_exceptions.md R123: every `CMD` write completes normally on the bus, and one that leaves an error code has written
nothing else. -/
def Obligations.FailedCommandWritesOnlyErr : Prop :=
  ∀ (s : State) (w : Word) (rest : List HostEvent),
    s.pending = .req (cmdRequest w) :: rest →
    ∃ t, step s = .next t ∧ t.responses = s.responses ++ [.ok] ∧
      (t.err ≠ 0x00#8 → t = { s with pending := rest, responses := s.responses ++ [.ok], err := t.err })

/-! ### Who writes what -/

/-- 10_state.md R19: the events that write `STAT.VALID`, each with its effect, and no other; and where the invariants hold,
`VALID = 1` means that the stored checksum is right now. (No next state follows a broken handshake, here and below.) -/
def Obligations.OnlyTheseEventsWriteValid : Prop :=
  ∀ (s t : State) (e : HostEvent) (rest : List HostEvent),
    s.pending = e :: rest → step s = .next t →
    (s.Inv → t.valid = true → rdBe64 t.buf 0 = sumOf t.buf t.buflen.toNat) ∧
    t.valid =
      match e with
      | .reset => false
      | .resetDuring _ => false
      | .breaksHandshake => s.valid
      | .req r =>
        match decodeBus r with
        | .ok (.bufWrite a _) => if a.toNat < s.cfg.F then false else s.valid
        | .ok (.regWrite .buflen v) => if v.toNat ≤ s.cfg.F then false else s.valid
        | .ok (.regWrite .cmd w) =>
          match decode w with
          | .ok .verFrame => decide (20 ≤ s.buflen.toNat ∧ sumOf s.buf s.buflen.toNat = rdBe64 s.buf 0)
          | .ok .verReply => decide (16 ≤ s.buflen.toNat ∧ sumOf s.buf s.buflen.toNat = rdBe64 s.buf 0)
          | .ok .encFrame =>
            if s.len.toNat ≤ s.cfg.F - 20 ∧ (s.disc = 1#32 ∨ s.disc = 2#32) then false else s.valid
          | .ok .encReply => if s.disc = 1#32 ∨ s.disc = 2#32 then false else s.valid
          | _ => s.valid
        | _ => s.valid

/-- 10_state.md R20: `STAT.ERR` is written by an accepted write of `CMD` and by reset alone, and what a `CMD` write leaves
does not depend on the code before it. -/
def Obligations.OnlyCmdWritesAndResetWriteErr : Prop :=
  (∀ (s t : State) (e : HostEvent) (rest : List HostEvent),
    s.pending = e :: rest → step s = .next t → isCmdWrite e = false →
    t.err =
      match e with
      | .reset => 0x00#8
      | .resetDuring _ => 0x00#8
      | _ => s.err) ∧
  (∀ (s : State) (w : Word) (rest : List HostEvent) (x : Byte),
    s.pending = .req (cmdRequest w) :: rest → step { s with err := x } = step s)

/-- 10_state.md R17: `CSUM` is written by a successful encode, by a verify of a long enough buffer, and by reset. -/
def Obligations.OnlyTheseEventsWriteCsum : Prop :=
  ∀ (s t : State) (e : HostEvent) (rest : List HostEvent),
    s.pending = e :: rest → step s = .next t →
    t.csum =
      match e with
      | .reset => 0#64
      | .resetDuring _ => 0#64
      | .breaksHandshake => s.csum
      | .req r =>
        match decodeBus r with
        | .ok (.regWrite .cmd w) =>
          match decode w with
          | .ok .verFrame => if 20 ≤ s.buflen.toNat then sumOf s.buf s.buflen.toNat else s.csum
          | .ok .verReply => if 16 ≤ s.buflen.toNat then sumOf s.buf s.buflen.toNat else s.csum
          | .ok .encFrame =>
            if s.len.toNat ≤ s.cfg.F - 20 ∧ (s.disc = 1#32 ∨ s.disc = 2#32) then sumOf t.buf s.cfg.F else s.csum
          | .ok .encReply => if s.disc = 1#32 ∨ s.disc = 2#32 then sumOf t.buf 16 else s.csum
          | _ => s.csum
        | _ => s.csum

/-- 10_state.md R13 to R16: who writes `SEQ`, `DISC`, `LEN` and `BUFLEN`: the host, the decode commands, the encode
commands (`BUFLEN`) and reset, and no other event. -/
def Obligations.OnlyTheseEventsWriteTheOperandRegisters : Prop :=
  ∀ (s t : State) (e : HostEvent) (rest : List HostEvent),
    s.pending = e :: rest → step s = .next t →
    (t.seq, t.disc, t.len, t.buflen) =
      match e with
      | .reset => (0#32, 0#32, 0#32, 0#32)
      | .resetDuring _ => (0#32, 0#32, 0#32, 0#32)
      | .breaksHandshake => (s.seq, s.disc, s.len, s.buflen)
      | .req r =>
        match decodeBus r with
        | .ok (.regWrite .seq v) => (v, s.disc, s.len, s.buflen)
        | .ok (.regWrite .disc v) => (s.seq, v, s.len, s.buflen)
        | .ok (.regWrite .len v) => (s.seq, s.disc, v, s.buflen)
        | .ok (.regWrite .buflen v) => (s.seq, s.disc, s.len, if v.toNat ≤ s.cfg.F then v else s.buflen)
        | .ok (.regWrite .cmd w) =>
          if t.err ≠ 0x00#8 then (s.seq, s.disc, s.len, s.buflen)
          else
            match decode w with
            | .ok .encFrame => (s.seq, s.disc, s.len, BitVec.ofNat 32 s.cfg.F)
            | .ok .encReply => (s.seq, s.disc, s.len, 16#32)
            | .ok .decFrame => (rdBe32 s.buf 8, rdBe32 s.buf 12, rdBe32 s.buf 16, s.buflen)
            | .ok .decReply => (rdBe32 s.buf 8, rdBe32 s.buf 12, s.len, s.buflen)
            | _ => (s.seq, s.disc, s.len, s.buflen)
        | _ => (s.seq, s.disc, s.len, s.buflen)

/-- 10_state.md R24: `PAY` is written by an accepted host write of a `PAY` byte and by reset; no command writes it. -/
def Obligations.OnlyPayWritesAndResetWritePay : Prop :=
  ∀ (s t : State) (e : HostEvent) (rest : List HostEvent),
    s.pending = e :: rest → step s = .next t →
    ∀ a : Nat,
      t.pay.read a =
        match e with
        | .reset => 0x00#8
        | .resetDuring _ => 0x00#8
        | .breaksHandshake => s.pay.read a
        | .req r =>
          match decodeBus r with
          | .ok (.payWrite x b) => if x.toNat < s.cfg.F - 20 ∧ a = x.toNat then b else s.pay.read a
          | _ => s.pay.read a

/-- 43_decode.md R114; 10_state.md R23: the bytes of `BUF` from offset 16 on change only at an accepted host write of that
byte, at `ENC_FRAME` and at reset. -/
def Obligations.PayloadSliceStaysUntilOverwritten : Prop :=
  ∀ (s t : State) (e : HostEvent) (rest : List HostEvent),
    s.pending = e :: rest → step s = .next t →
    e ≠ .reset → (∀ r, e ≠ .resetDuring r) →
    (∀ r w, e = .req r → decodeBus r = .ok (.regWrite .cmd w) → decode w ≠ .ok .encFrame) →
    ∀ a : Nat, 16 ≤ a →
      (∀ r x b, e = .req r → decodeBus r = .ok (.bufWrite x b) → x.toNat ≠ a) →
      t.buf.read a = s.buf.read a

/-- 70_reset_and_hazards.md R155; 43_decode.md R113: once `VALID` is 0 it stays 0 over any run without a verify command, and
both decode commands are refused at its end. -/
def Obligations.DecodeNeedsAVerifySinceTheLastChange : Prop :=
  ∀ (es : List HostEvent) (s t : State),
    s.valid = false →
    (∀ e ∈ es, ∀ r w, e = .req r → decodeBus r = .ok (.regWrite .cmd w) →
      decode w ≠ .ok .verFrame ∧ decode w ≠ .ok .verReply) →
    runEvents es s = .next t →
    t.valid = false ∧ exec .decFrame t = .next { t with err := 0x04#8 } ∧
      exec .decReply t = .next { t with err := 0x04#8 }

/-! ### The bus -/

/-- 20_memory.md R45: a request is refused in the cases B1 to B6 and in no other; a refused request changes nothing, and
the response says so. A write of `CMD` is never refused, and a word outside the opcode map gives `E_ILLEGAL_CMD`. -/
def Obligations.RefusedExactlyInTheSixCases : Prop :=
  ∀ (s : State) (r : BusReq) (rest : List HostEvent),
    s.pending = .req r :: rest →
    (Refused s r → step s = .next { s with pending := rest, responses := s.responses ++ [.busError] }) ∧
    (¬ Refused s r →
      ∃ t x, step s = .next t ∧ t.responses = s.responses ++ [x] ∧ x ≠ .busError) ∧
    (∀ w, r = cmdRequest w →
      ∃ t, step s = .next t ∧ t.responses = s.responses ++ [.ok] ∧ (w.toNat = 0 ∨ 7 ≤ w.toNat → t.err = 0x01#8))

/-- 60_exceptions.md R121: `BusError` comes with no change of state; a `CMD` write never gives `BusError`; any other request
leaves `STAT.ERR`. -/
def Obligations.FaultChannelsAreDisjoint : Prop :=
  ∀ (s t : State) (r : BusReq) (rest : List HostEvent),
    s.pending = .req r :: rest → step s = .next t →
    (t.responses = s.responses ++ [.busError] →
      t = { s with pending := rest, responses := s.responses ++ [.busError] }) ∧
    (isCmdWrite (.req r) = true → t.responses = s.responses ++ [.ok]) ∧
    (isCmdWrite (.req r) = false → t.err = s.err)

/-- 10_state.md R30, R17, R18, R22: what a read of each register answers; it changes nothing (20_memory.md R48). -/
def Obligations.RegisterReadsAnswerTheRegisters : Prop :=
  ∀ (s : State) (a : BusAddr) (d v : Word) (rest : List HostEvent),
    s.pending = .req (wordRead a d) :: rest →
    ((a = 0x04#18 ∧ v.toNat = s.err.toNat * 256 + s.valid.toNat) ∨ (a = 0x08#18 ∧ v = s.seq) ∨
      (a = 0x0C#18 ∧ v = s.disc) ∨ (a = 0x10#18 ∧ v = s.len) ∨ (a = 0x14#18 ∧ v = s.buflen) ∨
      (a = 0x18#18 ∧ v = s.csum.extractLsb' 32 32) ∨ (a = 0x1C#18 ∧ v = s.csum.extractLsb' 0 32) ∨
      (a = 0x20#18 ∧ v.toNat = s.cfg.F)) →
    step s = .next { s with pending := rest, responses := s.responses ++ [.data v] }

/-- 10_state.md R13 to R16, R19; 20_memory.md R48: what an accepted write of each writable register changes. -/
def Obligations.RegisterWritesChangeTheRegister : Prop :=
  ∀ (s : State) (v : Word) (rest : List HostEvent),
    (s.pending = .req (wordWrite 0x08#18 v) :: rest →
      step s = .next { s with pending := rest, responses := s.responses ++ [.ok], seq := v }) ∧
    (s.pending = .req (wordWrite 0x0C#18 v) :: rest →
      step s = .next { s with pending := rest, responses := s.responses ++ [.ok], disc := v }) ∧
    (s.pending = .req (wordWrite 0x10#18 v) :: rest →
      step s = .next { s with pending := rest, responses := s.responses ++ [.ok], len := v }) ∧
    (s.pending = .req (wordWrite 0x14#18 v) :: rest → v.toNat ≤ s.cfg.F →
      step s = .next { s with pending := rest, responses := s.responses ++ [.ok], buflen := v, valid := false })

/-- 20_memory.md R41, R42, R47: a read of a buffer byte answers the byte in bits 7:0 and changes nothing. -/
def Obligations.BufferReadsAnswerTheByte : Prop :=
  ∀ (s : State) (n : Nat) (d : Word) (rest : List HostEvent),
    (n < s.cfg.F → s.pending = .req (byteRead (BitVec.ofNat 18 (0x10000 + n)) d) :: rest →
      step s = .next { s with pending := rest, responses := s.responses ++ [.data ((s.buf.read n).setWidth 32)] }) ∧
    (n < s.cfg.F - 20 → s.pending = .req (byteRead (BitVec.ofNat 18 (0x20000 + n)) d) :: rest →
      step s = .next { s with pending := rest, responses := s.responses ++ [.data ((s.pay.read n).setWidth 32)] })

/-- 20_memory.md R41, R42, R47, R48; 10_state.md R19: a write of a buffer byte stores bits 7:0 of the data at that offset and
at no other; a `BUF` write clears `VALID`. -/
def Obligations.BufferWritesStoreTheByte : Prop :=
  ∀ (s : State) (n : Nat) (d : Word) (rest : List HostEvent),
    (n < s.cfg.F → s.pending = .req (byteWrite (BitVec.ofNat 18 (0x10000 + n)) d) :: rest →
      ∃ m : Memory,
        step s = .next { s with pending := rest, responses := s.responses ++ [.ok], buf := m, valid := false } ∧
        m.read n = d.extractLsb' 0 8 ∧ ∀ a, a ≠ n → m.read a = s.buf.read a) ∧
    (n < s.cfg.F - 20 → s.pending = .req (byteWrite (BitVec.ofNat 18 (0x20000 + n)) d) :: rest →
      ∃ m : Memory,
        step s = .next { s with pending := rest, responses := s.responses ++ [.ok], pay := m } ∧
        m.read n = d.extractLsb' 0 8 ∧ ∀ a, a ≠ n → m.read a = s.pay.read a)

/-- 20_memory.md R48: no read changes any state but the record of the host's side. -/
def Obligations.ReadsChangeNothing : Prop :=
  ∀ (s : State) (r : BusReq) (rest : List HostEvent),
    s.pending = .req r :: rest → r.write = false →
    ∃ x, step s = .next { s with pending := rest, responses := s.responses ++ [x] }

/-- 20_memory.md R49, R50; 00_scope.md R5: each request is taken in order, gets exactly one response, and leaves the
parameter `F`. -/
def Obligations.OneResponsePerRequestInOrder : Prop :=
  ∀ (s : State) (r : BusReq) (rest : List HostEvent),
    s.pending = .req r :: rest →
    ∃ t x, step s = .next t ∧ t.pending = rest ∧ t.responses = s.responses ++ [x] ∧ t.cfg = s.cfg

/-- 20_memory.md R48: repeating a `CMD` write leaves the same state, from every state with the invariants. -/
def Obligations.RepeatingACommandChangesNothingMore : Prop :=
  ∀ (w : Word) (s t : State), s.Inv → runCommand w s = .next t → runCommand w t = .next t

/-- 70_reset_and_hazards.md R161: the block never halts. A step stops only where the host broke the handshake, and there it
is a fault (the model's treatment of 93_implementation_defined.md U16, log 7). -/
def Obligations.StepGoesOnUnlessTheHandshakeBreaks : Prop :=
  ∀ s : State,
    ((∀ rest, s.pending ≠ .breaksHandshake :: rest) → ∃ t, step s = .next t) ∧
    ((∃ rest, s.pending = .breaksHandshake :: rest) → step s = .fault .brokenHandshake)

/-! ### Invariants -/

/-- 10_state.md R25: every step keeps the invariants, from every state that has them, and the reserved bits of `STAT` read
as 0. The canonical form of the buffers, a part of `Inv`, is the model's own (log 5). -/
def Obligations.EveryStepKeepsTheInvariants : Prop :=
  ∀ s t : State, s.Inv → step s = .next t → t.Inv ∧ statWord t &&& 0xFFFF00FE#32 = 0#32

/-- 10_state.md R25: the invariants hold after reset, for every `F`. -/
def Obligations.ResetHasTheInvariants : Prop :=
  (∀ c : Config, (State.resetOf c).Inv) ∧ State.reset.Inv

/-! ### The checksum -/

/-- 40_checksum.md R81: the standard check value. -/
def Obligations.CrcCheckValue : Prop :=
  crc32 [0x31#8, 0x32#8, 0x33#8, 0x34#8, 0x35#8, 0x36#8, 0x37#8, 0x38#8, 0x39#8] = 0xCBF43926#32

/-- 40_checksum.md R85 item 5: a change of one byte, and so of one bit, always changes `crc32`. -/
def Obligations.CrcDetectsEveryOneByteChange : Prop :=
  ∀ (before after : List Byte) (b c : Byte), b ≠ c → crc32 (before ++ b :: after) ≠ crc32 (before ++ c :: after)

/-- 40_checksum.md R85 item 5: a change of up to four neighbouring bytes always changes `crc32`. -/
def Obligations.CrcDetectsEveryFourByteBurst : Prop :=
  ∀ (before after bs cs : List Byte),
    bs.length = 4 → cs.length = 4 → bs ≠ cs → crc32 (before ++ bs ++ after) ≠ crc32 (before ++ cs ++ after)

/-- 40_checksum.md R85 item 5; 95_test_vectors.md E2: a verified buffer one byte of which is changed, the checksum field
included, no longer verifies. -/
def Obligations.ChangedBufferNeverVerifies : Prop :=
  ∀ (s : State) (a : Nat) (b : Byte) (i : Instr),
    s.Inv → s.valid = true → a < s.buflen.toNat → b ≠ s.buf.read a → (i = .verFrame ∨ i = .verReply) →
    ∃ t, exec i { s with buf := s.buf.write a b } = .next t ∧ t.valid = false

/-! ### Encode, verify, decode -/

/-- 41_encode.md R92 item 1: what an encode builds, the verify of its format finds valid; `VER_FRAME` finds a Reply
invalid. -/
def Obligations.EncodedBufferVerifies : Prop :=
  ∀ s : State, LegalDisc s →
    (s.len.toNat ≤ s.cfg.F - 20 →
      ∃ t u, exec .encFrame s = .next t ∧ exec .verFrame t = .next u ∧ u.valid = true) ∧
    (∃ t u v, exec .encReply s = .next t ∧ exec .verReply t = .next u ∧ u.valid = true ∧
      exec .verFrame t = .next v ∧ v.valid = false)

/-- 41_encode.md R92 item 2, 95_test_vectors.md E1: the round trip of a Frame, as a host script from any state. -/
def Obligations.FrameRoundTrip : Prop :=
  ∀ (s : State) (seq kind : Word) (p : List Byte),
    (kind = 1#32 ∨ kind = 2#32) → p.length ≤ s.cfg.F - 20 →
    ∃ t,
      runScript (expand (.encode seq.toNat kind.toNat p) ++ [.cmd .verFrame, .cmd .decFrame]) s = .next t ∧
      statWord t = 0x00000001#32 ∧ t.seq = seq ∧ t.disc = kind ∧ t.len.toNat = p.length ∧
      t.buf.readBytes 20 p.length = p

/-- 41_encode.md R92 item 3: the round trip of a Reply, as a host script from any state. -/
def Obligations.ReplyRoundTrip : Prop :=
  ∀ (s : State) (seq status : Word),
    (status = 1#32 ∨ status = 2#32) →
    ∃ t,
      runScript (expand (.encodeReply seq.toNat status.toNat) ++ [.cmd .verReply, .cmd .decReply]) s = .next t ∧
      statWord t = 0x00000001#32 ∧ t.seq = seq ∧ t.disc = status

/-- 41_encode.md R92 item 4: what an encode builds depends on its operands alone. -/
def Obligations.EncodeDependsOnItsOperandsAlone : Prop :=
  ∀ s s' t t' : State,
    s.seq = s'.seq → s.disc = s'.disc →
    (s.cfg = s'.cfg → s.len = s'.len → s.pay.readBytes 0 s.len.toNat = s'.pay.readBytes 0 s.len.toNat →
      s.len.toNat ≤ s.cfg.F - 20 → LegalDisc s →
      exec .encFrame s = .next t → exec .encFrame s' = .next t' →
      t.buf.readBytes 0 s.cfg.F = t'.buf.readBytes 0 s.cfg.F ∧ t.csum = t'.csum ∧ t.buflen = t'.buflen) ∧
    (LegalDisc s → exec .encReply s = .next t → exec .encReply s' = .next t' →
      t.buf.readBytes 0 16 = t'.buf.readBytes 0 16 ∧ t.csum = t'.csum ∧ t.buflen = t'.buflen)

/-- 42_verify.md R100, R101; 43_decode.md R110, R111; 10_state.md R16, R26: a verify and a decode depend on their operands
alone. A verify reads `BUFLEN` and `BUF[0:BUFLEN]`, `DEC_FRAME` reads `VALID`, `BUFLEN` and `BUF[8:20]`, `DEC_REPLY` reads
`VALID`, `BUFLEN` and `BUF[8:16]`, a decode of a shorter buffer reads none of it; so bytes past `BUFLEN` never count. A
register a command does not write on the path it takes keeps its old value, and for that case alone the old values are
compared. -/
def Obligations.VerifyAndDecodeReadOnlyTheirOperands : Prop :=
  ∀ s s' t t' : State,
    s.buflen = s'.buflen →
    (s.buf.readBytes 0 s.buflen.toNat = s'.buf.readBytes 0 s.buflen.toNat →
      (exec .verFrame s = .next t → exec .verFrame s' = .next t' →
        t.valid = t'.valid ∧ t.err = t'.err ∧ (20 ≤ s.buflen.toNat ∨ s.csum = s'.csum → t.csum = t'.csum)) ∧
      (exec .verReply s = .next t → exec .verReply s' = .next t' →
        t.valid = t'.valid ∧ t.err = t'.err ∧ (16 ≤ s.buflen.toNat ∨ s.csum = s'.csum → t.csum = t'.csum))) ∧
    (s.valid = s'.valid →
      ((20 ≤ s.buflen.toNat → s.buf.readBytes 8 12 = s'.buf.readBytes 8 12) →
        exec .decFrame s = .next t → exec .decFrame s' = .next t' →
        t.err = t'.err ∧
        (t.err = 0x00#8 ∨ s.seq = s'.seq → t.seq = t'.seq) ∧ (t.err = 0x00#8 ∨ s.disc = s'.disc → t.disc = t'.disc) ∧
        (t.err = 0x00#8 ∨ s.len = s'.len → t.len = t'.len)) ∧
      ((16 ≤ s.buflen.toNat → s.buf.readBytes 8 8 = s'.buf.readBytes 8 8) →
        exec .decReply s = .next t → exec .decReply s' = .next t' →
        t.err = t'.err ∧
        (t.err = 0x00#8 ∨ s.seq = s'.seq → t.seq = t'.seq) ∧ (t.err = 0x00#8 ∨ s.disc = s'.disc → t.disc = t'.disc) ∧
        (s.len = s'.len → t.len = t'.len)))

/-! ### Runs and hosts -/

/-- 70_reset_and_hazards.md R161; 20_memory.md R50: as many steps as there are pending events are the run of those events. -/
def Obligations.StepsAreTheRunOfThePendingEvents : Prop :=
  ∀ (s : State) (es rest : List HostEvent),
    s.pending = es ++ rest →
    Host.Core.run Sys2Proof.core es.length s = runEvents es { s with pending := rest }

/-- 60_exceptions.md R125: a run in which nothing went wrong reaches its end, and the end has no error of a command but one
that stood at the start. -/
def Obligations.SafeRunReachesItsEnd : Prop :=
  ∀ (es : List HostEvent) (s : State), safeRun es s = true →
    ∃ t, runEvents es s = .next t ∧ (s.err = 0x00#8 → t.err = 0x00#8)

/-- 60_exceptions.md R136, R137, R142; 95_test_vectors.md E3: one unit over a channel that delivers both datagrams. The
sender encodes and sends it, the receiver delivers exactly the payload and acknowledges, the sender takes the
acknowledgment and goes on to the next unit. The two hosts are the model's own programs (log 14), and the
policy says how they count (log 18): the sender's number is any that a 32-bit `sequence` can carry under the policy. -/
def Obligations.OneRoundTripDeliversTheUnit : Prop :=
  ∀ (p : HostPolicy) (sd : Sender) (r : Receiver) (sb rb : State) (kind : Word) (pl : List Byte)
    (rest : List (Word × List Byte)),
    sd.phase = .awaitingTransmit → sd.units = (kind, pl) :: rest →
    (kind = 1#32 ∨ kind = 2#32) → pl.length ≤ sb.cfg.F - 20 → rb.cfg = sb.cfg →
    r.failed = false → r.expected = sd.nextSeq → seqNumber p (seqPattern sd.nextSeq) = sd.nextSeq →
    ∃ (d ack : List Byte) (sd1 sd2 : Sender) (r1 : Receiver) (sb1 sb2 rb1 : State),
      senderTransmit p sd sb = .next ⟨sd1, some d, sb1⟩ ∧ d.length = sb.cfg.F ∧ sd1.phase = .awaitingAck ∧
      receive p true d r rb = .next ⟨r1, some ack, rb1⟩ ∧ ack.length = 16 ∧
      r1.expected = seqNext p r.expected ∧ r1.failed = false ∧
      r1.sink = (if r.expected = 0 then some (pl, []) else r.sink.map fun c => (c.1, c.2 ++ pl)) ∧
      senderAwait p (.reply ack) sd1 sb1 = .next ⟨sd2, none, sb2⟩ ∧
      sd2.phase = .awaitingTransmit ∧ sd2.units = rest ∧ sd2.nextSeq = seqNext p sd.nextSeq

/-- 60_exceptions.md R142 step 4; 95_test_vectors.md E5: the Frame just delivered, received once more, is acknowledged again
and nothing is delivered twice. For every policy, so for both readings of `expectedSequence - 1` and of bit 31 (R145 items
4 and 5; log 18). The receiver is the model's own program (log 14). -/
def Obligations.DuplicateFrameIsAckedNotRewritten : Prop :=
  ∀ (p : HostPolicy) (ok : Bool) (r : Receiver) (s t rb : State),
    exec .encFrame s = .next t → s.len.toNat ≤ s.cfg.F - 20 → LegalDisc s → rb.cfg = s.cfg →
    r.failed = false → r.expected = seqNext p (seqNumber p s.seq) →
    ∃ (ack : List Byte) (rb1 : State),
      receive p ok (t.buf.readBytes 0 s.cfg.F) r rb = .next ⟨r, some ack, rb1⟩ ∧
      ack = be64 (0#32 ++ crc32 (be32 s.seq ++ be32 1#32)) ++ be32 s.seq ++ be32 1#32

/-- 60_exceptions.md R142 step 2: a datagram of a legal length whose stored and computed checksums differ is answered by a
Nak carrying `expectedSequence`, and the receiver does not change. The receiver is the model's own program (log 14). The
Nak carries the low 32 bits of the counter; that a counter no 32-bit pattern denotes is written so is the model's choice
(log 18). -/
def Obligations.CorruptDatagramIsNakked : Prop :=
  ∀ (p : HostPolicy) (ok : Bool) (r : Receiver) (d : List Byte) (rb : State),
    r.failed = false → 20 ≤ d.length → d.length ≤ rb.cfg.F →
    be64 (0#32 ++ crc32 (d.drop 8)) ≠ d.take 8 →
    ∃ (nak : List Byte) (rb1 : State),
      receive p ok d r rb = .next ⟨r, some nak, rb1⟩ ∧
      nak =
        be64 (0#32 ++ crc32 (be32 (seqPattern r.expected) ++ be32 2#32)) ++ be32 (seqPattern r.expected) ++ be32 2#32

/-- 60_exceptions.md R137: under the default policy the sender sends the identical Frame again and stays in `awaitingAck`
after a timer expiry and after every Reply that is too short, corrupt, or anything but an Ack of the Frame just sent. The
sender is the model's own program (log 14); that it loads a Reply shorter than 16 bytes and resends at once is the model's
choice (log 16), and so are the count of resends (log 19) and the kept copy, which leaves the block as it was (log 20).
The sequence just sent is compared as the low 32 bits of the sender's counter (log 18). -/
def Obligations.SenderResendsTheIdenticalFrame : Prop :=
  ∀ (sd : Sender) (sb : State),
    sd.phase = .awaitingAck →
    senderAwait {} .timerExpiry sd sb = .next ⟨{ sd with retries := sd.retries + 1 }, some sd.frame, sb⟩ ∧
    (∀ d : List Byte, d.length ≤ sb.cfg.F →
      (d.length < 16 ∨ be64 (0#32 ++ crc32 (d.drop 8)) ≠ d.take 8 ∨
        (d.drop 8).take 8 ≠ be32 (seqPattern sd.sentSeq) ++ be32 1#32) →
      ∃ sb1, senderAwait {} (.reply d) sd sb = .next ⟨{ sd with retries := sd.retries + 1 }, some sd.frame, sb1⟩)

/-- 30_encoding.md R76: the pseudo-operation `decodeFrame` runs `DEC_FRAME`, reads `STAT`, `SEQ`, `DISC` and `LEN`, then the
`LEN` bytes of `BUF` from offset 20 on, `LEN` being what its own read returned, and has no other effect than `DEC_FRAME`.
It is stated whether the command succeeds or not, for every `LEN` whose offsets the bus carries (log 12); a read past `F`
answers `BusError` (20_memory.md R45 B6). That responses stand in the state is the model's choice (log 3). -/
def Obligations.DecodeFrameReadsThePayloadSlice : Prop :=
  ∀ s t : State, exec .decFrame s = .next t → 20 + t.len.toNat ≤ 65536 →
    runPseudo .decodeFrame s =
      .next { t with
        responses :=
          s.responses ++ [.ok, .data (statWord t), .data t.seq, .data t.disc, .data t.len] ++
            (List.range t.len.toNat).map fun i =>
              if 20 + i < s.cfg.F then Response.data ((s.buf.read (20 + i)).setWidth 32) else .busError }

/-- 60_exceptions.md R145 items 4 and 5: where `expectedSequence` is above 0 and below 0x7FFFFFFF, what the receiver does
with a datagram does not depend on how the host counts, wrapping or not, nor on whether bit 31 of a `sequence` is a sign. The
receiver is the model's own program (log 14). -/
def Obligations.SequenceReadingMattersOnlyAtTheEnds : Prop :=
  ∀ (p : HostPolicy) (wraps signed ok : Bool) (d : List Byte) (r : Receiver) (s : State),
    0 < r.expected → r.expected < 0x7FFFFFFF →
    receive { p with wrapsSequence := wraps, signedSequence := signed } ok d r s = receive p ok d r s

/-- 60_exceptions.md R145 item 4: before the name unit has arrived, a verified Frame with `sequence` 0xFFFFFFFF counts as a
duplicate exactly for a host whose counters wrap or who reads bit 31 as a sign; no other `sequence` does for any host. -/
def Obligations.DuplicateBeforeTheNameUnit : Prop :=
  ∀ (p : HostPolicy) (r : Receiver) (seq : Word), r.expected = 0 →
    (isDuplicate p r seq = true ↔ seq = 0xFFFFFFFF#32 ∧ (p.wrapsSequence = true ∨ p.signedSequence = true))
end

