-- ==== Sys2Proof/Laws/State.lean ====
section
/-! SUPPORT. Sys2Proof/Laws/State.lean: each field of the state after each update of it, so that no later proof unfolds an
update. -/

namespace Sys2Proof.Machine

/-! ### setErr: `STAT.ERR <- code` -/

@[simp] theorem setErr_cfg (e : ErrCode) (s : State) : (setErr e s).cfg = s.cfg := rfl
@[simp] theorem setErr_seq (e : ErrCode) (s : State) : (setErr e s).seq = s.seq := rfl
@[simp] theorem setErr_disc (e : ErrCode) (s : State) : (setErr e s).disc = s.disc := rfl
@[simp] theorem setErr_len (e : ErrCode) (s : State) : (setErr e s).len = s.len := rfl
@[simp] theorem setErr_buflen (e : ErrCode) (s : State) : (setErr e s).buflen = s.buflen := rfl
@[simp] theorem setErr_csum (e : ErrCode) (s : State) : (setErr e s).csum = s.csum := rfl
@[simp] theorem setErr_valid (e : ErrCode) (s : State) : (setErr e s).valid = s.valid := rfl
@[simp] theorem setErr_err (e : ErrCode) (s : State) : (setErr e s).err = errCode e := rfl
@[simp] theorem setErr_buf (e : ErrCode) (s : State) : (setErr e s).buf = s.buf := rfl
@[simp] theorem setErr_pay (e : ErrCode) (s : State) : (setErr e s).pay = s.pay := rfl
@[simp] theorem setErr_pending (e : ErrCode) (s : State) : (setErr e s).pending = s.pending := rfl
@[simp] theorem setErr_responses (e : ErrCode) (s : State) : (setErr e s).responses = s.responses := rfl

/-! ### setValid: `STAT.VALID <- v` -/

@[simp] theorem setValid_cfg (v : Bool) (s : State) : (setValid v s).cfg = s.cfg := rfl
@[simp] theorem setValid_seq (v : Bool) (s : State) : (setValid v s).seq = s.seq := rfl
@[simp] theorem setValid_disc (v : Bool) (s : State) : (setValid v s).disc = s.disc := rfl
@[simp] theorem setValid_len (v : Bool) (s : State) : (setValid v s).len = s.len := rfl
@[simp] theorem setValid_buflen (v : Bool) (s : State) : (setValid v s).buflen = s.buflen := rfl
@[simp] theorem setValid_csum (v : Bool) (s : State) : (setValid v s).csum = s.csum := rfl
@[simp] theorem setValid_valid (v : Bool) (s : State) : (setValid v s).valid = v := rfl
@[simp] theorem setValid_err (v : Bool) (s : State) : (setValid v s).err = s.err := rfl
@[simp] theorem setValid_buf (v : Bool) (s : State) : (setValid v s).buf = s.buf := rfl
@[simp] theorem setValid_pay (v : Bool) (s : State) : (setValid v s).pay = s.pay := rfl
@[simp] theorem setValid_pending (v : Bool) (s : State) : (setValid v s).pending = s.pending := rfl
@[simp] theorem setValid_responses (v : Bool) (s : State) : (setValid v s).responses = s.responses := rfl

/-! ### respond: a response -/

@[simp] theorem respond_cfg (r : Response) (s : State) : (respond r s).cfg = s.cfg := rfl
@[simp] theorem respond_seq (r : Response) (s : State) : (respond r s).seq = s.seq := rfl
@[simp] theorem respond_disc (r : Response) (s : State) : (respond r s).disc = s.disc := rfl
@[simp] theorem respond_len (r : Response) (s : State) : (respond r s).len = s.len := rfl
@[simp] theorem respond_buflen (r : Response) (s : State) : (respond r s).buflen = s.buflen := rfl
@[simp] theorem respond_csum (r : Response) (s : State) : (respond r s).csum = s.csum := rfl
@[simp] theorem respond_valid (r : Response) (s : State) : (respond r s).valid = s.valid := rfl
@[simp] theorem respond_err (r : Response) (s : State) : (respond r s).err = s.err := rfl
@[simp] theorem respond_buf (r : Response) (s : State) : (respond r s).buf = s.buf := rfl
@[simp] theorem respond_pay (r : Response) (s : State) : (respond r s).pay = s.pay := rfl
@[simp] theorem respond_pending (r : Response) (s : State) : (respond r s).pending = s.pending := rfl
@[simp] theorem respond_responses (r : Response) (s : State) : (respond r s).responses = s.responses ++ [r] := rfl

/-! ### sealBuffer: the end of an encode command -/

@[simp] theorem sealBuffer_cfg (n : Nat) (m : Memory) (s : State) : (sealBuffer n m s).cfg = s.cfg := rfl
@[simp] theorem sealBuffer_seq (n : Nat) (m : Memory) (s : State) : (sealBuffer n m s).seq = s.seq := rfl
@[simp] theorem sealBuffer_disc (n : Nat) (m : Memory) (s : State) : (sealBuffer n m s).disc = s.disc := rfl
@[simp] theorem sealBuffer_len (n : Nat) (m : Memory) (s : State) : (sealBuffer n m s).len = s.len := rfl
@[simp] theorem sealBuffer_buflen (n : Nat) (m : Memory) (s : State) : (sealBuffer n m s).buflen = BitVec.ofNat 32 n := rfl
@[simp] theorem sealBuffer_csum (n : Nat) (m : Memory) (s : State) : (sealBuffer n m s).csum = checksum m n := rfl
@[simp] theorem sealBuffer_valid (n : Nat) (m : Memory) (s : State) : (sealBuffer n m s).valid = false := rfl
@[simp] theorem sealBuffer_err (n : Nat) (m : Memory) (s : State) : (sealBuffer n m s).err = s.err := rfl
@[simp] theorem sealBuffer_buf (n : Nat) (m : Memory) (s : State) : (sealBuffer n m s).buf = m.writeBytes OFF_CHECKSUM (be64 (checksum m n)) := rfl
@[simp] theorem sealBuffer_pay (n : Nat) (m : Memory) (s : State) : (sealBuffer n m s).pay = s.pay := rfl
@[simp] theorem sealBuffer_pending (n : Nat) (m : Memory) (s : State) : (sealBuffer n m s).pending = s.pending := rfl
@[simp] theorem sealBuffer_responses (n : Nat) (m : Memory) (s : State) : (sealBuffer n m s).responses = s.responses := rfl

/-! ### takeCommonFields: the fields a decode command takes -/

@[simp] theorem takeCommonFields_cfg (s : State) : (takeCommonFields s).cfg = s.cfg := rfl
@[simp] theorem takeCommonFields_seq (s : State) : (takeCommonFields s).seq = fieldSequence s := rfl
@[simp] theorem takeCommonFields_disc (s : State) : (takeCommonFields s).disc = fieldDisc s := rfl
@[simp] theorem takeCommonFields_len (s : State) : (takeCommonFields s).len = s.len := rfl
@[simp] theorem takeCommonFields_buflen (s : State) : (takeCommonFields s).buflen = s.buflen := rfl
@[simp] theorem takeCommonFields_csum (s : State) : (takeCommonFields s).csum = s.csum := rfl
@[simp] theorem takeCommonFields_valid (s : State) : (takeCommonFields s).valid = s.valid := rfl
@[simp] theorem takeCommonFields_err (s : State) : (takeCommonFields s).err = s.err := rfl
@[simp] theorem takeCommonFields_buf (s : State) : (takeCommonFields s).buf = s.buf := rfl
@[simp] theorem takeCommonFields_pay (s : State) : (takeCommonFields s).pay = s.pay := rfl
@[simp] theorem takeCommonFields_pending (s : State) : (takeCommonFields s).pending = s.pending := rfl
@[simp] theorem takeCommonFields_responses (s : State) : (takeCommonFields s).responses = s.responses := rfl

/-! ### resetBlock: the reset event -/

@[simp] theorem resetBlock_cfg (s : State) : (resetBlock s).cfg = s.cfg := rfl
@[simp] theorem resetBlock_seq (s : State) : (resetBlock s).seq = 0#32 := rfl
@[simp] theorem resetBlock_disc (s : State) : (resetBlock s).disc = 0#32 := rfl
@[simp] theorem resetBlock_len (s : State) : (resetBlock s).len = 0#32 := rfl
@[simp] theorem resetBlock_buflen (s : State) : (resetBlock s).buflen = 0#32 := rfl
@[simp] theorem resetBlock_csum (s : State) : (resetBlock s).csum = 0#64 := rfl
@[simp] theorem resetBlock_valid (s : State) : (resetBlock s).valid = false := rfl
@[simp] theorem resetBlock_err (s : State) : (resetBlock s).err = 0x00#8 := rfl
@[simp] theorem resetBlock_buf (s : State) : (resetBlock s).buf = [] := rfl
@[simp] theorem resetBlock_pay (s : State) : (resetBlock s).pay = [] := rfl
@[simp] theorem resetBlock_pending (s : State) : (resetBlock s).pending = s.pending := rfl
@[simp] theorem resetBlock_responses (s : State) : (resetBlock s).responses = s.responses := rfl

end Sys2Proof.Machine
end

