-- ==== Sys2Proof/Laws/Bus.lean ====
section
/-! SUPPORT. Sys2Proof/Laws/Bus.lean: the window and the offset of a bus address, and what a request to a register is. -/

namespace Sys2Proof

@[simp] theorem busWindow_append (x : BitVec 2) (o : Offset) : busWindow (x ++ o) = x := BitVec.extractLsb'_append_eq_left

@[simp] theorem busOffset_append (x : BitVec 2) (o : Offset) : busOffset (x ++ o) = o := BitVec.extractLsb'_append_eq_right

/-- A bus address is its window and its offset. -/
theorem busAddr_eq (a : BusAddr) : a = busWindow a ++ busOffset a := by
  unfold busWindow busOffset
  rw [BitVec.extractLsb'_append_extractLsb'_eq_extractLsb' (by rfl)]
  exact BitVec.extractLsb'_eq_self.symm

/-- The window as a number (20_memory.md R41). -/
theorem busWindow_toNat (a : BusAddr) : (busWindow a).toNat = a.toNat / 0x10000 := by
  have := a.isLt
  simp only [busWindow, BitVec.extractLsb'_toNat, Nat.shiftRight_eq_div_pow]
  omega

/-- The offset as a number (20_memory.md R41). -/
theorem busOffset_toNat (a : BusAddr) : (busOffset a).toNat = a.toNat % 0x10000 := by
  simp [busOffset, BitVec.extractLsb'_toNat]

@[simp] theorem regAt_regAddr (r : Reg) : regAt (regAddr r) = some r := by cases r <;> rfl

theorem regAddr_aligned (r : Reg) : (regAddr r).toNat % 4 = 0 := by cases r <;> rfl

/-- A 32-bit request at a register's address is an access to that register. -/
theorem decodeBus_register (w : Bool) (r : Reg) (d : Word) :
    decodeBus ⟨w, .word, 0#2 ++ regAddr r, d⟩ = .ok (if w then .regWrite r d else .regRead r) := by
  simp [decodeBus, decodeReg, regAddr_aligned]

end Sys2Proof

namespace Sys2Proof.Machine

/-- A write of `CMD`, as the bus carries it, runs the command of its word. -/
theorem serve_cmdWrite (w : Word) (s : State) : serve (cmdWrite w) s = runCommand w (respond .ok s) := by
  simp [serve, cmdWrite, encodeBus, decodeBus_register, perform, regWrite]

end Sys2Proof.Machine
end

