-- ==== Sys2Proof/Laws/Memory.lean ====
section
/-! SUPPORT. Sys2Proof/Laws/Memory.lean: what reading, writing and the canonical form of a buffer have to do with each
other. -/

namespace Sys2Proof.Machine

/-! ### Reading one byte -/

@[simp] theorem Memory.read_nil (a : Nat) : Memory.read [] a = 0x00#8 := rfl

theorem Memory.read_cons (c : Host.Cell) (m : Memory) (a : Nat) :
    Memory.read (c :: m) a = if c.1 = a then c.2 else Memory.read m a := rfl

theorem Memory.read_unlisted (m : Memory) (a : Nat) (h : ∀ c ∈ m, c.1 ≠ a) : m.read a = 0x00#8 := by
  induction m with
  | nil => rfl
  | cons c m ih =>
    rw [Memory.read_cons, if_neg (h c (by simp)), ih fun d hd => h d (by simp [hd])]

/-- In a concatenation the first list that lists an address decides. -/
theorem Memory.read_append (m n : Memory) (a : Nat) :
    Memory.read (m ++ n) a = if ∃ c ∈ m, c.1 = a then m.read a else n.read a := by
  induction m with
  | nil => simp
  | cons c m ih =>
    rw [List.cons_append, Memory.read_cons, Memory.read_cons, ih]
    by_cases h : c.1 = a
    · simp [h]
    · simp [h]

theorem Memory.read_filter (m : Memory) (p : Host.Cell → Bool) (a : Nat) (h : ∀ b, p (a, b) = true) :
    Memory.read (m.filter p) a = m.read a := by
  induction m with
  | nil => rfl
  | cons c m ih =>
    rw [List.filter_cons, Memory.read_cons]
    by_cases hc : c.1 = a
    · have : p c = true := by subst hc; exact h c.2
      rw [if_pos this, Memory.read_cons, if_pos hc, if_pos hc]
    · rw [if_neg hc]
      split
      · rw [Memory.read_cons, if_neg hc, ih]
      · exact ih

/-! ### The cells of a byte list -/

theorem Memory.cellsOf_bounds (bs : List Byte) (a : Nat) :
    ∀ c ∈ Memory.cellsOf a bs, a ≤ c.1 ∧ c.1 < a + bs.length ∧ c.2 ≠ 0x00#8 := by
  induction bs generalizing a with
  | nil => simp [Memory.cellsOf]
  | cons b bs ih =>
    intro c hc
    simp only [Memory.cellsOf] at hc
    split at hc
    · have := ih (a + 1) c hc
      simp only [List.length_cons]
      exact ⟨by omega, by omega, this.2.2⟩
    · rename_i hb
      simp only [List.mem_cons] at hc
      rcases hc with rfl | hc
      · exact ⟨by simp, by simp, hb⟩
      · have := ih (a + 1) c hc
        simp only [List.length_cons]
        exact ⟨by omega, by omega, this.2.2⟩

theorem Memory.cellsOf_rising (bs : List Byte) (a : Nat) :
    (Memory.cellsOf a bs).Pairwise (fun c d => c.1 < d.1) := by
  induction bs generalizing a with
  | nil => exact List.Pairwise.nil
  | cons b bs ih =>
    simp only [Memory.cellsOf]
    split
    · exact ih (a + 1)
    · refine List.Pairwise.cons (fun c hc => ?_) (ih (a + 1))
      have := Memory.cellsOf_bounds bs (a + 1) c hc
      exact this.1

theorem Memory.read_cellsOf (bs : List Byte) (a i : Nat) (h : i < bs.length) :
    Memory.read (Memory.cellsOf a bs) (a + i) = bs[i] := by
  induction bs generalizing a i with
  | nil => simp at h
  | cons b bs ih =>
    have above : ∀ c ∈ Memory.cellsOf (a + 1) bs, c.1 ≠ a := fun c hc => by
      have := Memory.cellsOf_bounds bs (a + 1) c hc
      omega
    cases i with
    | zero =>
      simp only [Memory.cellsOf]
      split
      · rename_i hb
        simpa [hb] using Memory.read_unlisted _ _ above
      · simp [Memory.read_cons]
    | succ i =>
      have hi : i < bs.length := by simpa using h
      have key : Memory.read (Memory.cellsOf (a + 1) bs) (a + (i + 1)) = bs[i] := by
        rw [show a + (i + 1) = a + 1 + i by omega]; exact ih (a + 1) i hi
      simp only [Memory.cellsOf, List.getElem_cons_succ]
      split
      · exact key
      · rw [Memory.read_cons, if_neg (by simp only; omega)]; exact key

/-! ### Reading after writing -/

/-- A write of `bs` at `a` gives the bytes `bs` there and leaves every other byte as it was. -/
theorem Memory.read_writeBytes (m : Memory) (a x : Nat) (bs : List Byte) :
    (m.writeBytes a bs).read x = if h : a ≤ x ∧ x < a + bs.length then bs[x - a]'(by omega) else m.read x := by
  unfold Memory.writeBytes
  rw [Memory.read_append, Memory.read_append]
  have lows : ∀ c ∈ m.filter (fun c => c.1 < a), c.1 < a := by simp
  have highs : ∀ c ∈ m.filter (fun c => a + bs.length ≤ c.1), a + bs.length ≤ c.1 := by simp
  have mids := Memory.cellsOf_bounds bs a
  by_cases hlo : x < a
  · rw [dif_neg (by omega)]
    have hread : Memory.read (m.filter (fun c => c.1 < a)) x = m.read x :=
      Memory.read_filter _ _ _ (by simp [hlo])
    by_cases hx : ∃ c ∈ m.filter (fun c => c.1 < a), c.1 = x
    · have : ∃ c ∈ m.filter (fun c => c.1 < a) ++ Memory.cellsOf a bs, c.1 = x := by
        obtain ⟨c, hc, e⟩ := hx
        exact ⟨c, List.mem_append_left _ hc, e⟩
      rw [if_pos this, if_pos hx, hread]
    · have none : m.read x = 0x00#8 := by
        rw [← hread]; exact Memory.read_unlisted _ _ fun c hc e => hx ⟨c, hc, e⟩
      have noneHi : Memory.read (m.filter (fun c => a + bs.length ≤ c.1)) x = 0x00#8 :=
        Memory.read_unlisted _ _ fun c hc e => by have := highs c hc; omega
      have noneMid : Memory.read (Memory.cellsOf a bs) x = 0x00#8 :=
        Memory.read_unlisted _ _ fun c hc e => by have := mids c hc; omega
      rw [if_neg hx, none, noneHi, noneMid]; simp
  · have noLow : ¬ ∃ c ∈ m.filter (fun c => c.1 < a), c.1 = x := by
      rintro ⟨c, hc, e⟩; have := lows c hc; omega
    rw [if_neg noLow]
    by_cases hin : x < a + bs.length
    · rw [dif_pos ⟨by omega, hin⟩]
      have hcell : Memory.read (Memory.cellsOf a bs) x = bs[x - a]'(by omega) := by
        have := Memory.read_cellsOf bs a (x - a) (by omega)
        rwa [show a + (x - a) = x by omega] at this
      have noneHi : Memory.read (m.filter (fun c => a + bs.length ≤ c.1)) x = 0x00#8 :=
        Memory.read_unlisted _ _ fun c hc e => by have := highs c hc; omega
      rw [noneHi, hcell]
      split
      · rfl
      · rename_i hn
        rw [← hcell]
        exact (Memory.read_unlisted _ _ fun c hc e => hn ⟨c, List.mem_append_right _ hc, e⟩).symm
    · rw [dif_neg (by omega)]
      have none : ¬ ∃ c ∈ m.filter (fun c => c.1 < a) ++ Memory.cellsOf a bs, c.1 = x := by
        rintro ⟨c, hc, e⟩
        rcases List.mem_append.mp hc with hc | hc
        · have := lows c hc; omega
        · have := mids c hc; omega
      rw [if_neg none]
      exact Memory.read_filter _ _ _ (by simp; omega)

theorem Memory.read_writeBytes_at (m : Memory) (a i : Nat) (bs : List Byte) (h : i < bs.length) :
    (m.writeBytes a bs).read (a + i) = bs[i] := by
  rw [Memory.read_writeBytes, dif_pos ⟨by omega, by omega⟩]
  simp

theorem Memory.read_writeBytes_outside (m : Memory) (a x : Nat) (bs : List Byte) (h : x < a ∨ a + bs.length ≤ x) :
    (m.writeBytes a bs).read x = m.read x := by
  rw [Memory.read_writeBytes, dif_neg (by omega)]

theorem Memory.read_write (m : Memory) (a x : Nat) (b : Byte) :
    (m.write a b).read x = if x = a then b else m.read x := by
  unfold Memory.write
  split
  · rename_i h; subst h
    simpa using Memory.read_writeBytes_at m x 0 [b] (by simp)
  · exact Memory.read_writeBytes_outside m a x [b] (by simp; omega)

/-! ### Slices -/

@[simp] theorem Memory.readBytes_length (m : Memory) (a n : Nat) : (m.readBytes a n).length = n := by
  induction n generalizing a with
  | zero => rfl
  | succ n ih => simp [Memory.readBytes, ih]

theorem Memory.readBytes_getElem (m : Memory) (a n i : Nat) (h : i < (m.readBytes a n).length) :
    (m.readBytes a n)[i] = m.read (a + i) := by
  induction n generalizing a i with
  | zero => simp at h
  | succ n ih =>
    cases i with
    | zero => rfl
    | succ i =>
      simp only [Memory.readBytes, List.getElem_cons_succ]
      rw [ih]; congr 1; omega

/-- A slice depends on its own bytes alone. -/
theorem Memory.readBytes_congr (m m' : Memory) (a n : Nat) (h : ∀ x, a ≤ x → x < a + n → m.read x = m'.read x) :
    m.readBytes a n = m'.readBytes a n := by
  refine List.ext_getElem (by simp) fun i hi hi' => ?_
  rw [Memory.readBytes_getElem, Memory.readBytes_getElem]
  exact h _ (by omega) (by simp at hi; omega)

theorem Memory.readBytes_eq (m : Memory) (a : Nat) (bs : List Byte)
    (h : ∀ i, (hi : i < bs.length) → m.read (a + i) = bs[i]) : m.readBytes a bs.length = bs := by
  refine List.ext_getElem (by simp) fun i hi hi' => ?_
  rw [Memory.readBytes_getElem]
  exact h i hi'

theorem Memory.readBytes_writeBytes (m : Memory) (a : Nat) (bs : List Byte) :
    (m.writeBytes a bs).readBytes a bs.length = bs :=
  Memory.readBytes_eq _ _ _ fun i hi => Memory.read_writeBytes_at m a i bs hi

theorem Memory.readBytes_add (m : Memory) (a n k : Nat) :
    m.readBytes a (n + k) = m.readBytes a n ++ m.readBytes (a + n) k := by
  induction n generalizing a with
  | zero => simp [Memory.readBytes]
  | succ n ih =>
    rw [show n + 1 + k = (n + k) + 1 by omega]
    simp only [Memory.readBytes, List.cons_append, ih]
    rw [show a + 1 + n = a + (n + 1) by omega]

/-! ### The canonical form -/

/-- Every write keeps the canonical form. -/
theorem Memory.writeBytes_wf (m : Memory) (a : Nat) (bs : List Byte) (h : m.wf) : (m.writeBytes a bs).wf := by
  obtain ⟨hs, hz⟩ := h
  have mids := Memory.cellsOf_bounds bs a
  refine ⟨?_, ?_⟩
  · unfold Memory.writeBytes
    refine List.pairwise_append.mpr ⟨List.pairwise_append.mpr ⟨hs.filter _, Memory.cellsOf_rising bs a, ?_⟩,
      hs.filter _, ?_⟩
    · intro c hc d hd
      have := mids d hd
      simp only [List.mem_filter, decide_eq_true_eq] at hc
      omega
    · intro c hc d hd
      simp only [List.mem_append, List.mem_filter, decide_eq_true_eq] at hc hd
      rcases hc with hc | hc
      · omega
      · have := mids c hc; omega
  · intro c hc
    unfold Memory.writeBytes at hc
    simp only [List.mem_append, List.mem_filter] at hc
    rcases hc with (hc | hc) | hc
    · exact hz c hc.1
    · exact (mids c hc).2.2
    · exact hz c hc.1

/-- A write inside the first `n` bytes lists nothing above them. -/
theorem Memory.writeBytes_within (m : Memory) (a n : Nat) (bs : List Byte) (h : m.within n) (hn : a + bs.length ≤ n) :
    (m.writeBytes a bs).within n := by
  intro c hc
  unfold Memory.writeBytes at hc
  simp only [List.mem_append, List.mem_filter] at hc
  rcases hc with (hc | hc) | hc
  · exact h c hc.1
  · have := Memory.cellsOf_bounds bs a c hc; omega
  · exact h c hc.1

theorem Memory.write_wf (m : Memory) (a : Nat) (b : Byte) (h : m.wf) : (m.write a b).wf :=
  Memory.writeBytes_wf m a [b] h

theorem Memory.write_within (m : Memory) (a n : Nat) (b : Byte) (h : m.within n) (hn : a < n) :
    (m.write a b).within n :=
  Memory.writeBytes_within m a n [b] h (by simp; omega)

/-- Canonical buffers with the same bytes are the same data. -/
theorem Memory.ext_of_wf (m m' : Memory) (h : m.wf) (h' : m'.wf) (e : ∀ a, m.read a = m'.read a) : m = m' := by
  induction m generalizing m' with
  | nil =>
    cases m' with
    | nil => rfl
    | cons d m' =>
      have := e d.1
      rw [Memory.read_cons, if_pos rfl, Memory.read_nil] at this
      exact absurd this.symm (h'.2 d (by simp))
  | cons c m ih =>
    cases m' with
    | nil =>
      have := e c.1
      rw [Memory.read_cons, if_pos rfl, Memory.read_nil] at this
      exact absurd this (h.2 c (by simp))
    | cons d m' =>
      have hc := List.pairwise_cons.mp h.1
      have hd := List.pairwise_cons.mp h'.1
      have heads : c.1 = d.1 := by
        rcases Nat.lt_trichotomy c.1 d.1 with lt | eq | gt
        · have := e c.1
          rw [Memory.read_cons, if_pos rfl, Memory.read_cons, if_neg (by omega),
            Memory.read_unlisted _ _ fun x hx => by have := hd.1 x hx; omega] at this
          exact absurd this (h.2 c (by simp))
        · exact eq
        · have := e d.1
          rw [Memory.read_cons, if_neg (by omega), Memory.read_cons, if_pos rfl,
            Memory.read_unlisted _ _ fun x hx => by have := hc.1 x hx; omega] at this
          exact absurd this.symm (h'.2 d (by simp))
      have bytes : c.2 = d.2 := by
        have := e c.1
        rwa [Memory.read_cons, if_pos rfl, Memory.read_cons, if_pos heads.symm] at this
      have tails : m = m' := by
        refine ih m' ⟨hc.2, fun x hx => h.2 x (by simp [hx])⟩ ⟨hd.2, fun x hx => h'.2 x (by simp [hx])⟩ fun a => ?_
        by_cases ha : c.1 = a
        · rw [Memory.read_unlisted m _ fun x hx => by have := hc.1 x hx; omega,
            Memory.read_unlisted m' _ fun x hx => by have := hd.1 x hx; omega]
        · have := e a
          rwa [Memory.read_cons, if_neg ha, Memory.read_cons, if_neg (by omega)] at this
      rw [tails, Prod.ext heads bytes]

end Sys2Proof.Machine
end

