-- ==== Sys2Proof/Laws/Checksum.lean ====
section
/-! SUPPORT. Sys2Proof/Laws/Checksum.lean: `crc32` as a plain fold, what `widen` does to the two halves, and which bytes a
checksum depends on. -/

namespace Sys2Proof.Machine

@[simp] theorem strictly_eq {α : Type} (r : Word) (k : Word → α) : strictly r k = k r := by
  unfold strictly
  split
  · rename_i h
    rw [show r = 0#32 from BitVec.eq_of_toNat_eq (by simpa using h)]
  · rename_i n h
    rw [show n + 1 = r.toNat from h.symm, BitVec.ofNat_toNat, BitVec.setWidth_eq]

@[simp] theorem crcBits_zero (r : Word) : crcBits 0 r = r := rfl

@[simp] theorem crcBits_succ (n : Nat) (r : Word) : crcBits (n + 1) r = crcBits n (crcBit r) := by simp [crcBits]

@[simp] theorem crcBytes_nil (r : Word) : crcBytes [] r = r := rfl

@[simp] theorem crcBytes_cons (b : Byte) (bs : List Byte) (r : Word) :
    crcBytes (b :: bs) r = crcBytes bs (crcByte r b) := by simp [crcBytes]

theorem crcBytes_append (bs cs : List Byte) (r : Word) : crcBytes (bs ++ cs) r = crcBytes cs (crcBytes bs r) := by
  induction bs generalizing r with
  | nil => simp
  | cons b bs ih => simp [ih]

/-- `crc32` is the fold of `crcByte` over the bytes. -/
theorem crc32_eq_foldl (bs : List Byte) : crc32 bs = bs.foldl crcByte 0xFFFFFFFF#32 ^^^ 0xFFFFFFFF#32 := by
  have key : ∀ r, crcBytes bs r = bs.foldl crcByte r := by
    induction bs with
    | nil => intro r; rfl
    | cons b bs ih => intro r; rw [crcBytes_cons, ih, List.foldl_cons]
  rw [crc32, key]

@[simp] theorem widen_high (c : Word) : (widen c).extractLsb' 32 32 = 0#32 := BitVec.extractLsb'_append_eq_left

@[simp] theorem widen_low (c : Word) : (widen c).extractLsb' 0 32 = c := BitVec.extractLsb'_append_eq_right

theorem widen_inj (c d : Word) (h : widen c = widen d) : c = d := by
  rw [← widen_low c, h, widen_low]

/-- A checksum depends on the bytes from offset 8 up to its length alone (40_checksum.md R83). -/
theorem checksum_congr (m m' : Memory) (n : Nat) (h : ∀ x, COV ≤ x → x < n → m.read x = m'.read x) :
    checksum m n = checksum m' n := by
  unfold checksum
  rw [Memory.readBytes_congr m m' COV (n - COV) fun x hx hx' => h x hx (by omega)]

/-- Storing the checksum does not change the checksum (41_encode.md R90, corner case d). -/
theorem checksum_writeBytes_low (m : Memory) (bs : List Byte) (n : Nat) (h : bs.length ≤ COV) :
    checksum (m.writeBytes 0 bs) n = checksum m n :=
  checksum_congr _ _ _ fun x hx _ => Memory.read_writeBytes_outside m 0 x bs (by omega)

end Sys2Proof.Machine
end

