-- ==== Sys2Proof/Laws/Config.lean ====
section
/-! SUPPORT. Sys2Proof/Laws/Config.lean: the constants of 00_scope.md R5 as numbers, for `simp`. -/

namespace Sys2Proof

@[simp] theorem HDR_eq : HDR = 20 := rfl
@[simp] theorem RSZ_eq : RSZ = 16 := rfl
@[simp] theorem MIN_FRAME_eq : MIN_FRAME = 20 := rfl
@[simp] theorem MIN_REPLY_eq : MIN_REPLY = 16 := rfl
@[simp] theorem COV_eq : COV = 8 := rfl
@[simp] theorem OFF_CHECKSUM_eq : OFF_CHECKSUM = 0 := rfl
@[simp] theorem OFF_SEQUENCE_eq : OFF_SEQUENCE = 8 := rfl
@[simp] theorem OFF_DISC_eq : OFF_DISC = 12 := rfl
@[simp] theorem OFF_LENGTH_eq : OFF_LENGTH = 16 := rfl
@[simp] theorem OFF_CONTENT_eq : OFF_CONTENT = 20 := rfl
@[simp] theorem K_NAME_eq : K_NAME = 1#32 := rfl
@[simp] theorem K_DATA_eq : K_DATA = 2#32 := rfl
@[simp] theorem S_ACK_eq : S_ACK = 1#32 := rfl
@[simp] theorem S_NAK_eq : S_NAK = 2#32 := rfl

theorem Config.cap_eq (c : Config) : c.cap = c.F - 20 := rfl

/-- The capacity and the header make up the Frame. -/
theorem Config.cap_add_header (c : Config) : c.cap + 20 = c.F := by
  have := c.F_ge
  rw [Config.cap_eq]; omega

/-- `F` fits a 32-bit register. -/
@[simp] theorem Config.ofNat_F_toNat (c : Config) : (BitVec.ofNat 32 c.F).toNat = c.F := by
  have := c.F_le
  simp only [BitVec.toNat_ofNat]
  omega

end Sys2Proof
end

