-- ==== Sys2Proof/Laws/Host.lean ====
section
/-! SUPPORT. Sys2Proof/Laws/Host.lean: the sequence numbers of the two hosts (60_exceptions.md R145 items 4 and 5), and
everything a resend can do. -/

namespace Sys2Proof.Machine

variable {p : HostPolicy} {n : Int}

/-! ### Numbers and patterns -/

/-- A pattern is written to `SEQ` as it was read, under either reading of bit 31. -/
@[simp] theorem seqPattern_seqNumber (p : HostPolicy) (w : Word) : seqPattern (seqNumber p w) = w := by
  unfold seqPattern seqNumber
  split
  · exact BitVec.ofInt_toInt
  · exact (BitVec.ofInt_natCast 32 w.toNat).trans (BitVec.ofNat_toNat 32 w |>.trans (BitVec.setWidth_eq w))

theorem seqNumber_inj {v w : Word} (h : seqNumber p v = seqNumber p w) : v = w := by
  rw [← seqPattern_seqNumber p v, h, seqPattern_seqNumber]

/-- Unit 0 is the pattern 0, under either reading. -/
theorem seqNumber_eq_zero (w : Word) : seqNumber p w = 0 ↔ w = 0#32 := by
  have zero : seqNumber p 0#32 = 0 := by unfold seqNumber; split <;> rfl
  exact ⟨fun h => seqNumber_inj (h.trans zero.symm), fun h => h ▸ zero⟩

/-- A number below 2^31 is denoted by the same pattern under both readings. -/
theorem seqNumber_eq_small (p : HostPolicy) (w : Word) (h0 : 0 ≤ n) (h : n < 0x80000000) :
    seqNumber p w = n ↔ (w.toNat : Int) = n := by
  have := w.isLt
  unfold seqNumber
  split
  · rw [BitVec.toInt_eq_toNat_cond]; split <;> omega
  · rfl

/-- Every number that fits is denoted by its own pattern. -/
theorem seqNumber_seqPattern_small (p : HostPolicy) (h0 : 0 ≤ n) (h : n < 0x80000000) :
    seqNumber p (seqPattern n) = n := by
  rw [seqNumber_eq_small p _ h0 h, seqPattern, BitVec.toNat_ofInt]
  omega

/-- A counter that fits the 32 bits is compared by its pattern. -/
theorem seqNumber_eq_iff (h : seqNumber p (seqPattern n) = n) (w : Word) : seqNumber p w = n ↔ w = seqPattern n :=
  ⟨fun e => by rw [← e, seqPattern_seqNumber], fun e => e ▸ h⟩

/-- Counting on the numbers is counting modulo 2^32 on the patterns. -/
theorem seqPattern_add (m n : Int) : seqPattern (m + n) = seqPattern m + seqPattern n := BitVec.ofInt_add m n

@[simp] theorem seqPattern_seqResult (p : HostPolicy) (n : Int) : seqPattern (seqResult p n) = seqPattern n := by
  unfold seqResult; split
  · exact seqPattern_seqNumber p _
  · rfl

/-! ### Counting -/

theorem seqResult_small (p : HostPolicy) (h0 : 0 ≤ n) (h : n < 0x80000000) : seqResult p n = n := by
  unfold seqResult; split
  · exact seqNumber_seqPattern_small p h0 h
  · rfl

/-- The unit before the next one is the one itself, so a Frame just delivered is a duplicate. -/
theorem seqPrev_seqNext (h : seqNumber p (seqPattern n) = n) : seqPrev p (seqNext p n) = n := by
  by_cases hw : p.wrapsSequence = true
  · have low : seqPattern (seqNext p n - 1) = seqPattern n := by
      rw [Int.sub_eq_add_neg, seqPattern_add, seqNext, seqPattern_seqResult, ← seqPattern_add]
      congr 1; omega
    rw [seqPrev, seqResult, if_pos hw, low, h]
  · simp only [seqPrev, seqNext, seqResult, if_neg hw]; omega

/-- The next unit is another one, under every policy. -/
theorem seqNext_ne (p : HostPolicy) (n : Int) : seqNext p n ≠ n := by
  intro e
  have low : seqPattern n + 1#32 = seqPattern n := by
    have := congrArg seqPattern e
    rwa [seqNext, seqPattern_seqResult, seqPattern_add] at this
  bv_omega

/-! ### Resends -/

/-- A resend: the sender gives up at its limit, or sends its copy once more; the block is not used. -/
theorem senderResend_cases (p : HostPolicy) (sd : Sender) (s : State) :
    ((∃ k, p.retryLimit = some k ∧ k ≤ sd.retries) ∧
      senderResend p sd s = .next ⟨{ sd with phase := .gaveUp }, none, s⟩) ∨
    ((∀ k, p.retryLimit = some k → sd.retries < k) ∧
      senderResend p sd s = .next ⟨{ sd with retries := sd.retries + 1 }, some sd.frame, s⟩) := by
  unfold senderResend
  cases p.retryLimit with
  | none => exact .inr ⟨by simp, rfl⟩
  | some k =>
    by_cases hk : k ≤ sd.retries
    · exact .inl ⟨⟨k, rfl, hk⟩, by simp [hk]⟩
    · exact .inr ⟨fun k' e => by cases e; omega, by simp [hk]⟩

end Sys2Proof.Machine
end

