-- ==== Sys2Proof/Laws/Machine.lean ====
section
/-! SUPPORT. Sys2Proof/Laws/Machine.lean: for each shared operation, everything it can do, said once. -/

namespace Sys2Proof.Machine

variable {s t : State}

/-! ### Ends of a command -/

theorem raiseError_next {e : ErrCode} : raiseError e s = .next t ↔ t = setErr e s := by
  simp [raiseError, eq_comm]

theorem complete_next : complete s = .next t ↔ t = setErr .none s := by simp [complete, eq_comm]

/-! ### Answers -/

theorem answerRead_next {x : Except BusRefusal Word} (h : answerRead x s = .next t) :
    (∃ v, x = .ok v ∧ t = respond (.data v) s) ∨ (∃ e, x = .error e ∧ t = respond .busError s) := by
  cases x with
  | ok v => exact .inl ⟨v, rfl, by simpa [answerRead, eq_comm] using h⟩
  | error e => exact .inr ⟨e, rfl, by simpa [answerRead, eq_comm] using h⟩

theorem answerWrite_next {x : Except BusRefusal State} (h : answerWrite x s = .next t) :
    (∃ u, x = .ok u ∧ t = respond .ok u) ∨ (∃ e, x = .error e ∧ t = respond .busError s) := by
  cases x with
  | ok u => exact .inl ⟨u, rfl, by simpa [answerWrite, eq_comm] using h⟩
  | error e => exact .inr ⟨e, rfl, by simpa [answerWrite, eq_comm] using h⟩

/-! ### Runs -/

@[simp] theorem andThen_next {α β : Type} (a : α) (k : α → Host.Outcome β Fault Refusal) :
    andThen (.next a) k = k a := rfl

theorem andThen_eq_next {α β : Type} {x : Host.Outcome α Fault Refusal} {k : α → Host.Outcome β Fault Refusal} {b : β} :
    andThen x k = .next b ↔ ∃ a, x = .next a ∧ k a = .next b := by
  cases x <;> simp [andThen]

@[simp] theorem runEvents_nil : runEvents [] s = .next s := rfl

@[simp] theorem runEvents_cons (e : HostEvent) (es : List HostEvent) :
    runEvents (e :: es) s = andThen (handle e s) (runEvents es) := rfl

theorem runEvents_append (es fs : List HostEvent) (s : State) :
    runEvents (es ++ fs) s = andThen (runEvents es s) (runEvents fs) := by
  induction es generalizing s with
  | nil => rfl
  | cons e es ih =>
    rw [List.cons_append, runEvents_cons, runEvents_cons]
    cases h : handle e s with
    | next t => simp [ih]
    | fault r => rfl
    | refused r => rfl

theorem runScript_append (a b : List Stmt) (s : State) :
    runScript (a ++ b) s = andThen (runScript a s) (runScript b) := by
  simp only [runScript, List.map_append, runEvents_append]
  rfl

/-! ### The shared operations of the commands -/

/-- A verify either finds the buffer too short, and only clears `VALID`, or sets `CSUM` and `VALID` and nothing else. -/
theorem verify_cases (least : Nat) (s : State) :
    (s.buflen.toNat < least ∧ verify least s = { s with valid := false }) ∨
    (least ≤ s.buflen.toNat ∧
      verify least s = { s with
        csum := checksum s.buf s.buflen.toNat,
        valid := decide (checksum s.buf s.buflen.toNat = storedChecksum s) }) := by
  unfold verify
  split
  · exact .inl ⟨by assumption, rfl⟩
  · exact .inr ⟨by omega, rfl⟩

/-- A write of `CMD` either runs the command its word decodes to or raises `E_ILLEGAL_CMD`. -/
theorem runCommand_cases (w : Word) (s : State) :
    (∃ i, decode w = .ok i ∧ runCommand w s = exec i s) ∨
    (∃ e, decode w = .error e ∧ runCommand w s = raiseError .illegalCmd s) := by
  unfold runCommand
  cases decode w with
  | ok i => exact .inl ⟨i, rfl, rfl⟩
  | error e => exact .inr ⟨e, rfl, rfl⟩

/-- A request is either refused for its address or width, or performed. -/
theorem serve_cases (r : BusReq) (s : State) :
    (∃ tr, decodeBus r = .ok tr ∧ serve r s = perform tr s) ∨
    (∃ e, decodeBus r = .error e ∧ serve r s = .next (respond .busError s)) := by
  unfold serve
  cases decodeBus r with
  | ok tr => exact .inl ⟨tr, rfl, rfl⟩
  | error e => exact .inr ⟨e, rfl, rfl⟩

/-- A step with an event pending handles that event. -/
theorem step_pending {e : HostEvent} {rest : List HostEvent} (h : s.pending = e :: rest) :
    step s = handle e { s with pending := rest } := by
  unfold step; rw [h]

theorem step_idle (h : s.pending = []) : step s = .next s := by
  unfold step; rw [h]

end Sys2Proof.Machine
end

