-- ==== Sys2Proof/Laws/Operands.lean ====
section
/-! SUPPORT. Sys2Proof/Laws/Operands.lean: splitting a value into big-endian bytes and joining them again (40_checksum.md
R86). -/

namespace Sys2Proof.Machine

@[simp] theorem be32_length (v : Word) : (be32 v).length = 4 := rfl

@[simp] theorem be64_length (v : DWord) : (be64 v).length = 8 := rfl

/-- The four bytes of a word, joined again. -/
theorem word_of_bytes (v : Word) :
    v.extractLsb' 24 8 ++ v.extractLsb' 16 8 ++ v.extractLsb' 8 8 ++ v.extractLsb' 0 8 = v := by
  rw [BitVec.extractLsb'_append_extractLsb'_eq_extractLsb' (by rfl),
    BitVec.extractLsb'_append_extractLsb'_eq_extractLsb' (by rfl),
    BitVec.extractLsb'_append_extractLsb'_eq_extractLsb' (by rfl)]
  exact BitVec.extractLsb'_eq_self

/-- The two words of a double word, joined again. -/
theorem dword_of_words (v : DWord) : v.extractLsb' 32 32 ++ v.extractLsb' 0 32 = v := by
  rw [BitVec.extractLsb'_append_extractLsb'_eq_extractLsb' (by rfl)]
  exact BitVec.extractLsb'_eq_self

theorem byte_of_high_word (v : DWord) (i : Nat) (h : i + 8 ≤ 32) :
    (v.extractLsb' 32 32).extractLsb' i 8 = v.extractLsb' (32 + i) 8 := by
  ext j hj
  simp only [BitVec.getElem_extractLsb', BitVec.getLsbD_extractLsb', show i + j < 32 by omega, decide_true,
    Bool.true_and]
  congr 1
  omega

/-- `be64` is `be32` of the high word and of the low word. -/
theorem be64_eq (v : DWord) : be64 v = be32 (v.extractLsb' 32 32) ++ be32 (v.extractLsb' 0 32) := by
  simp [be64, be32, BitVec.extractLsb'_extractLsb'_of_le, byte_of_high_word]

theorem be32_inj (v w : Word) (h : be32 v = be32 w) : v = w := by
  simp only [be32, List.cons.injEq, and_true] at h
  rw [← word_of_bytes v, ← word_of_bytes w, h.1, h.2.1, h.2.2.1, h.2.2.2]

/-- Joining four bytes gives the value they are the big-endian bytes of. -/
theorem rdBe32_of_readBytes (m : Memory) (o : Nat) (v : Word) (h : m.readBytes o 4 = be32 v) : rdBe32 m o = v := by
  simp only [Memory.readBytes, be32, List.cons.injEq, and_true] at h
  unfold rdBe32
  rw [h.1, h.2.1, show o + 2 = o + 1 + 1 by omega, show o + 3 = o + 1 + 1 + 1 by omega, h.2.2.1, h.2.2.2]
  exact word_of_bytes v

/-- Joining eight bytes gives the value they are the big-endian bytes of. -/
theorem rdBe64_of_readBytes (m : Memory) (o : Nat) (v : DWord) (h : m.readBytes o 8 = be64 v) : rdBe64 m o = v := by
  rw [show (8 : Nat) = 4 + 4 from rfl, Memory.readBytes_add, be64_eq] at h
  have parts := List.append_inj h (by simp)
  unfold rdBe64
  rw [rdBe32_of_readBytes m o _ parts.1, rdBe32_of_readBytes m (o + 4) _ parts.2]
  exact dword_of_words v

/-- The bytes of four joined bytes. -/
theorem be32_append (a b c d : Byte) : be32 (a ++ b ++ c ++ d) = [a, b, c, d] := by
  simp only [be32, List.cons.injEq, and_true]
  refine ⟨?_, ?_, ?_, ?_⟩ <;> ext i hi <;> simp only [BitVec.getElem_extractLsb', BitVec.getLsbD_append]
  · rw [if_neg (by omega), if_neg (by omega), if_neg (by omega), BitVec.getLsbD_eq_getElem (by omega)]
    congr 1; omega
  · rw [if_neg (by omega), if_neg (by omega), if_pos (by omega), BitVec.getLsbD_eq_getElem (by omega)]
    congr 1; omega
  · rw [if_neg (by omega), if_pos (by omega), BitVec.getLsbD_eq_getElem (by omega)]
    congr 1; omega
  · rw [if_pos (by omega), BitVec.getLsbD_eq_getElem (by omega)]
    congr 1; omega

/-- The bytes of a field are the bytes it was joined from. -/
theorem be32_rdBe32 (m : Memory) (o : Nat) : be32 (rdBe32 m o) = m.readBytes o 4 := be32_append _ _ _ _

/-- The bytes of the stored checksum are the bytes it was joined from. -/
theorem be64_rdBe64 (m : Memory) (o : Nat) : be64 (rdBe64 m o) = m.readBytes o 8 := by
  have high : (rdBe64 m o).extractLsb' 32 32 = rdBe32 m o := BitVec.extractLsb'_append_eq_left
  have low : (rdBe64 m o).extractLsb' 0 32 = rdBe32 m (o + 4) := BitVec.extractLsb'_append_eq_right
  rw [be64_eq, high, low, be32_rdBe32, be32_rdBe32, ← Memory.readBytes_add]

/-- Reading back a stored 32-bit value. -/
@[simp] theorem rdBe32_writeBytes (m : Memory) (o : Nat) (v : Word) : rdBe32 (m.writeBytes o (be32 v)) o = v :=
  rdBe32_of_readBytes _ _ _ (Memory.readBytes_writeBytes m o (be32 v))

/-- Reading back a stored 64-bit value. -/
@[simp] theorem rdBe64_writeBytes (m : Memory) (o : Nat) (v : DWord) : rdBe64 (m.writeBytes o (be64 v)) o = v :=
  rdBe64_of_readBytes _ _ _ (Memory.readBytes_writeBytes m o (be64 v))

/-- A field depends on its own four bytes alone. -/
theorem rdBe32_congr (m m' : Memory) (o : Nat) (h : ∀ x, o ≤ x → x < o + 4 → m.read x = m'.read x) :
    rdBe32 m o = rdBe32 m' o := by
  unfold rdBe32
  rw [h o, h (o + 1), h (o + 2), h (o + 3)] <;> omega

/-- The stored checksum depends on its own eight bytes alone. -/
theorem rdBe64_congr (m m' : Memory) (o : Nat) (h : ∀ x, o ≤ x → x < o + 8 → m.read x = m'.read x) :
    rdBe64 m o = rdBe64 m' o := by
  unfold rdBe64
  rw [rdBe32_congr m m' o fun x hx hx' => h x hx (by omega),
    rdBe32_congr m m' (o + 4) fun x hx hx' => h x (by omega) (by omega)]

theorem legalDisc_iff (d : Word) : legalDisc d = true ↔ d = 1#32 ∨ d = 2#32 := by simp [legalDisc]

end Sys2Proof.Machine
end

