-- ==== Sys2Proof/Laws/PerInstr.lean ====
section
/-! SUPPORT. Sys2Proof/Laws/PerInstr.lean: statements about every instruction as syntax, one lemma for each constructor. -/

open Sys2Proof

namespace Sys2Proof.Laws.CommandWord

/-- The word of a command has 0 in bits 31:8 and an assigned opcode in bits 7:0, it decodes to that command and to no other,
and the command is well formed (30_encoding.md R70). -/
def Statement (i : Instr) : Prop :=
  cmdZero (encode i) = 0#24 ∧ 1 ≤ (cmdOp (encode i)).toNat ∧ (cmdOp (encode i)).toNat ≤ 6 ∧
    decode (encode i) = .ok i ∧ i.wf = true

theorem encFrame : Statement .encFrame := ⟨by decide, by decide, by decide, rfl, rfl⟩
theorem encReply : Statement .encReply := ⟨by decide, by decide, by decide, rfl, rfl⟩
theorem verFrame : Statement .verFrame := ⟨by decide, by decide, by decide, rfl, rfl⟩
theorem verReply : Statement .verReply := ⟨by decide, by decide, by decide, rfl, rfl⟩
theorem decFrame : Statement .decFrame := ⟨by decide, by decide, by decide, rfl, rfl⟩
theorem decReply : Statement .decReply := ⟨by decide, by decide, by decide, rfl, rfl⟩

end Sys2Proof.Laws.CommandWord
end

