-- ==== Sys2Proof/Laws/Step.lean ====
section
/-! SUPPORT. Sys2Proof/Laws/Step.lean: everything a command can do, everything one event can do, and what a run of events
is, said once. -/

namespace Sys2Proof.Machine

variable {s t : State}

/-! ### Commands -/

/-- `ENC_FRAME`: one of its two errors, or the sealed Frame. -/
theorem execEncFrame_cases (s : State) :
    (s.cfg.cap < s.len.toNat ∧ execEncFrame s = .next (setErr .tooLong s)) ∨
    (s.len.toNat ≤ s.cfg.cap ∧ legalDisc s.disc = false ∧ execEncFrame s = .next (setErr .disc s)) ∨
    (s.len.toNat ≤ s.cfg.cap ∧ legalDisc s.disc = true ∧
      execEncFrame s = .next (setErr .none
        (sealBuffer s.cfg.F (putContent s ((putCommonFields s s.buf).writeBytes OFF_LENGTH (be32 s.len))) s))) := by
  unfold execEncFrame
  by_cases h : s.cfg.cap < s.len.toNat
  · exact .inl ⟨h, by rw [if_pos h]; rfl⟩
  · cases hd : legalDisc s.disc with
    | false => exact .inr (.inl ⟨by omega, rfl, by rw [if_neg h]; rfl⟩)
    | true => exact .inr (.inr ⟨by omega, rfl, by rw [if_neg h]; rfl⟩)

/-- `ENC_REPLY`: its error, or the sealed Reply. -/
theorem execEncReply_cases (s : State) :
    (legalDisc s.disc = false ∧ execEncReply s = .next (setErr .disc s)) ∨
    (legalDisc s.disc = true ∧
      execEncReply s = .next (setErr .none (sealBuffer RSZ (putCommonFields s s.buf) s))) := by
  unfold execEncReply
  cases hd : legalDisc s.disc with
  | false => exact .inl ⟨rfl, rfl⟩
  | true => exact .inr ⟨rfl, rfl⟩

/-- `DEC_FRAME`: one of its three errors, or the extracted fields. -/
theorem execDecFrame_cases (s : State) :
    (s.valid = false ∧ execDecFrame s = .next (setErr .notVerified s)) ∨
    (s.valid = true ∧ s.buflen.toNat < 20 ∧ execDecFrame s = .next (setErr .short s)) ∨
    (s.valid = true ∧ 20 ≤ s.buflen.toNat ∧ s.buflen.toNat - 20 < (fieldLength s).toNat ∧
      execDecFrame s = .next (setErr .length s)) ∨
    (s.valid = true ∧ 20 ≤ s.buflen.toNat ∧ (fieldLength s).toNat ≤ s.buflen.toNat - 20 ∧
      execDecFrame s = .next (setErr .none { takeCommonFields s with len := fieldLength s })) := by
  unfold execDecFrame
  cases hv : s.valid with
  | false => exact .inl ⟨rfl, rfl⟩
  | true =>
    by_cases h : s.buflen.toNat < MIN_FRAME
    · exact .inr (.inl ⟨rfl, h, by rw [if_neg (by decide), if_pos h]; rfl⟩)
    · by_cases hl : s.buflen.toNat - HDR < (fieldLength s).toNat
      · exact .inr (.inr (.inl ⟨rfl, Nat.not_lt.mp h, hl, by rw [if_neg (by decide), if_neg h, if_pos hl]; rfl⟩))
      · exact .inr (.inr (.inr ⟨rfl, Nat.not_lt.mp h, Nat.not_lt.mp hl, by rw [if_neg (by decide), if_neg h, if_neg hl]; rfl⟩))

/-- `DEC_REPLY`: one of its two errors, or the extracted fields. -/
theorem execDecReply_cases (s : State) :
    (s.valid = false ∧ execDecReply s = .next (setErr .notVerified s)) ∨
    (s.valid = true ∧ s.buflen.toNat < 16 ∧ execDecReply s = .next (setErr .short s)) ∨
    (s.valid = true ∧ 16 ≤ s.buflen.toNat ∧ execDecReply s = .next (setErr .none (takeCommonFields s))) := by
  unfold execDecReply
  cases hv : s.valid with
  | false => exact .inl ⟨rfl, rfl⟩
  | true =>
    by_cases h : s.buflen.toNat < MIN_REPLY
    · exact .inr (.inl ⟨rfl, h, by rw [if_neg (by decide), if_pos h]; rfl⟩)
    · exact .inr (.inr ⟨rfl, Nat.not_lt.mp h, by rw [if_neg (by decide), if_neg h]; rfl⟩)

/-- What no command touches. -/
structure CommandFrame (s t : State) : Prop where
  cfg : t.cfg = s.cfg
  pay : t.pay = s.pay
  pending : t.pending = s.pending
  responses : t.responses = s.responses

theorem verify_frame (least : Nat) (s : State) : CommandFrame s (setErr .none (verify least s)) := by
  rcases verify_cases least s with ⟨-, h⟩ | ⟨-, h⟩ <;> rw [h] <;> exact ⟨rfl, rfl, rfl, rfl⟩

/-- Every command goes on, and leaves `PAY`, the parameter and the host's side alone. -/
theorem exec_frame (i : Instr) (s : State) : ∃ t, exec i s = .next t ∧ CommandFrame s t := by
  cases i with
  | encFrame =>
    rcases execEncFrame_cases s with ⟨-, h⟩ | ⟨-, -, h⟩ | ⟨-, -, h⟩ <;> exact ⟨_, h, rfl, rfl, rfl, rfl⟩
  | encReply => rcases execEncReply_cases s with ⟨-, h⟩ | ⟨-, h⟩ <;> exact ⟨_, h, rfl, rfl, rfl, rfl⟩
  | verFrame => exact ⟨_, rfl, verify_frame MIN_FRAME s⟩
  | verReply => exact ⟨_, rfl, verify_frame MIN_REPLY s⟩
  | decFrame =>
    rcases execDecFrame_cases s with ⟨-, h⟩ | ⟨-, -, h⟩ | ⟨-, -, -, h⟩ | ⟨-, -, -, h⟩ <;>
      exact ⟨_, h, rfl, rfl, rfl, rfl⟩
  | decReply =>
    rcases execDecReply_cases s with ⟨-, h⟩ | ⟨-, -, h⟩ | ⟨-, -, h⟩ <;> exact ⟨_, h, rfl, rfl, rfl, rfl⟩

/-- No command reads or writes the record of responses (log 3). -/
theorem exec_respond (i : Instr) (x : Response) (h : exec i s = .next t) :
    exec i (respond x s) = .next (respond x t) := by
  cases i with
  | encFrame =>
    rcases execEncFrame_cases s with ⟨h1, e⟩ | ⟨h1, h2, e⟩ | ⟨h1, h2, e⟩ <;> cases e.symm.trans h
    · exact (if_pos h1).trans rfl
    · exact (if_neg (Nat.not_lt.mpr h1)).trans ((if_pos h2).trans rfl)
    · exact (if_neg (Nat.not_lt.mpr h1)).trans ((if_neg (by rw [respond_disc, h2]; decide)).trans rfl)
  | encReply =>
    rcases execEncReply_cases s with ⟨h1, e⟩ | ⟨h1, e⟩ <;> cases e.symm.trans h
    · exact (if_pos h1).trans rfl
    · exact (if_neg (by rw [respond_disc, h1]; decide)).trans rfl
  | verFrame =>
    cases h
    show Host.Outcome.next (setErr .none (verify MIN_FRAME (respond x s))) = _
    rcases verify_cases MIN_FRAME s with ⟨h1, e⟩ | ⟨h1, e⟩ <;> rw [e]
    · rw [verify, if_pos (by exact h1)]; rfl
    · rw [verify, if_neg (Nat.not_lt.mpr (by exact h1))]; rfl
  | verReply =>
    cases h
    show Host.Outcome.next (setErr .none (verify MIN_REPLY (respond x s))) = _
    rcases verify_cases MIN_REPLY s with ⟨h1, e⟩ | ⟨h1, e⟩ <;> rw [e]
    · rw [verify, if_pos (by exact h1)]; rfl
    · rw [verify, if_neg (Nat.not_lt.mpr (by exact h1))]; rfl
  | decFrame =>
    rcases execDecFrame_cases s with ⟨h1, e⟩ | ⟨h1, h2, e⟩ | ⟨h1, h2, h3, e⟩ | ⟨h1, h2, h3, e⟩ <;> cases e.symm.trans h
    · exact (if_pos h1).trans rfl
    · exact (if_neg (by rw [respond_valid, h1]; decide)).trans ((if_pos h2).trans rfl)
    · exact (if_neg (by rw [respond_valid, h1]; decide)).trans ((if_neg (Nat.not_lt.mpr h2)).trans ((if_pos h3).trans rfl))
    · exact (if_neg (by rw [respond_valid, h1]; decide)).trans
        ((if_neg (Nat.not_lt.mpr h2)).trans ((if_neg (Nat.not_lt.mpr h3)).trans rfl))
  | decReply =>
    rcases execDecReply_cases s with ⟨h1, e⟩ | ⟨h1, h2, e⟩ | ⟨h1, h2, e⟩ <;> cases e.symm.trans h
    · exact (if_pos h1).trans rfl
    · exact (if_neg (by rw [respond_valid, h1]; decide)).trans ((if_pos h2).trans rfl)
    · exact (if_neg (by rw [respond_valid, h1]; decide)).trans ((if_neg (Nat.not_lt.mpr h2)).trans rfl)

/-- So does every write of `CMD`. -/
theorem runCommand_frame (w : Word) (s : State) : ∃ t, runCommand w s = .next t ∧ CommandFrame s t := by
  rcases runCommand_cases w s with ⟨i, -, h⟩ | ⟨e, -, h⟩
  · rw [h]; exact exec_frame i s
  · exact ⟨_, h, rfl, rfl, rfl, rfl⟩

/-! ### Events -/

/-- Everything one event can leave of the state `s`: the constructors are the cases. -/
inductive Handled (s : State) : HostEvent → State → Prop
  | reset : Handled s .reset (resetBlock s)
  | resetDuring (r) : Handled s (.resetDuring r) (resetBlock s)
  /-- Refused for its address or its width. -/
  | noTransaction (r x) (h : decodeBus r = .error x) : Handled s (.req r) (respond .busError s)
  | command (r w t) (h : decodeBus r = .ok (.regWrite .cmd w)) (ht : runCommand w (respond .ok s) = .next t) :
      Handled s (.req r) t
  | regRead (r reg v) (h : decodeBus r = .ok (.regRead reg)) (hv : regRead reg s = .ok v) :
      Handled s (.req r) (respond (.data v) s)
  | cmdRead (r) (h : decodeBus r = .ok (.regRead .cmd)) : Handled s (.req r) (respond .busError s)
  | seqWrite (r v) (h : decodeBus r = .ok (.regWrite .seq v)) : Handled s (.req r) (respond .ok { s with seq := v })
  | discWrite (r v) (h : decodeBus r = .ok (.regWrite .disc v)) : Handled s (.req r) (respond .ok { s with disc := v })
  | lenWrite (r v) (h : decodeBus r = .ok (.regWrite .len v)) : Handled s (.req r) (respond .ok { s with len := v })
  | buflenWrite (r v) (h : decodeBus r = .ok (.regWrite .buflen v)) (hv : v.toNat ≤ s.cfg.F) :
      Handled s (.req r) (respond .ok { s with buflen := v, valid := false })
  | buflenTooLarge (r v) (h : decodeBus r = .ok (.regWrite .buflen v)) (hv : s.cfg.F < v.toNat) :
      Handled s (.req r) (respond .busError s)
  | readOnly (r reg v) (h : decodeBus r = .ok (.regWrite reg v))
      (hv : reg = .stat ∨ reg = .csumHi ∨ reg = .csumLo ∨ reg = .fsize) : Handled s (.req r) (respond .busError s)
  | bufRead (r a) (h : decodeBus r = .ok (.bufRead a)) (ha : a.toNat < s.cfg.F) :
      Handled s (.req r) (respond (.data ((s.buf.read a.toNat).setWidth 32)) s)
  | bufReadOut (r a) (h : decodeBus r = .ok (.bufRead a)) (ha : s.cfg.F ≤ a.toNat) :
      Handled s (.req r) (respond .busError s)
  | bufWrite (r a b) (h : decodeBus r = .ok (.bufWrite a b)) (ha : a.toNat < s.cfg.F) :
      Handled s (.req r) (respond .ok { s with buf := s.buf.write a.toNat b, valid := false })
  | bufWriteOut (r a b) (h : decodeBus r = .ok (.bufWrite a b)) (ha : s.cfg.F ≤ a.toNat) :
      Handled s (.req r) (respond .busError s)
  | payRead (r a) (h : decodeBus r = .ok (.payRead a)) (ha : a.toNat < s.cfg.F - 20) :
      Handled s (.req r) (respond (.data ((s.pay.read a.toNat).setWidth 32)) s)
  | payReadOut (r a) (h : decodeBus r = .ok (.payRead a)) (ha : s.cfg.F - 20 ≤ a.toNat) :
      Handled s (.req r) (respond .busError s)
  | payWrite (r a b) (h : decodeBus r = .ok (.payWrite a b)) (ha : a.toNat < s.cfg.F - 20) :
      Handled s (.req r) (respond .ok { s with pay := s.pay.write a.toNat b })
  | payWriteOut (r a b) (h : decodeBus r = .ok (.payWrite a b)) (ha : s.cfg.F - 20 ≤ a.toNat) :
      Handled s (.req r) (respond .busError s)

/-- Every event but a broken handshake goes on, as one of the cases of `Handled`. -/
theorem handle_next {e : HostEvent} (he : e ≠ .breaksHandshake) (s : State) :
    ∃ t, handle e s = .next t ∧ Handled s e t := by
  cases e with
  | breaksHandshake => exact absurd rfl he
  | reset => exact ⟨_, rfl, .reset⟩
  | resetDuring r => exact ⟨_, rfl, .resetDuring r⟩
  | req r =>
    show ∃ t, serve r s = .next t ∧ _
    unfold serve
    cases hd : decodeBus r with
    | error x => exact ⟨_, rfl, .noTransaction r x hd⟩
    | ok tr =>
      cases tr with
      | regRead reg =>
        cases reg with
        | cmd => exact ⟨_, rfl, .cmdRead r hd⟩
        | _ => exact ⟨_, rfl, .regRead r _ _ hd rfl⟩
      | regWrite reg v =>
        cases reg with
        | cmd =>
          obtain ⟨t, ht, -⟩ := runCommand_frame v (respond .ok s)
          exact ⟨t, ht, .command r v t hd ht⟩
        | seq => exact ⟨_, rfl, .seqWrite r v hd⟩
        | disc => exact ⟨_, rfl, .discWrite r v hd⟩
        | len => exact ⟨_, rfl, .lenWrite r v hd⟩
        | buflen =>
          by_cases hv : s.cfg.F < v.toNat
          · exact ⟨_, by simp [perform, regWrite, writeBuflen, hv, answerWrite], .buflenTooLarge r v hd hv⟩
          · exact ⟨_, by simp [perform, regWrite, writeBuflen, hv, answerWrite, setValid], .buflenWrite r v hd (by omega)⟩
        | stat => exact ⟨_, rfl, .readOnly r _ v hd (by simp)⟩
        | csumHi => exact ⟨_, rfl, .readOnly r _ v hd (by simp)⟩
        | csumLo => exact ⟨_, rfl, .readOnly r _ v hd (by simp)⟩
        | fsize => exact ⟨_, rfl, .readOnly r _ v hd (by simp)⟩
      | bufRead a =>
        by_cases ha : a.toNat < s.cfg.F
        · exact ⟨_, by simp [perform, Machine.bufRead, ha, answerRead], .bufRead r a hd ha⟩
        · exact ⟨_, by simp [perform, Machine.bufRead, ha, answerRead], .bufReadOut r a hd (by omega)⟩
      | bufWrite a b =>
        by_cases ha : a.toNat < s.cfg.F
        · exact ⟨_, by simp [perform, Machine.bufWrite, ha, answerWrite, setValid], .bufWrite r a b hd ha⟩
        · exact ⟨_, by simp [perform, Machine.bufWrite, ha, answerWrite], .bufWriteOut r a b hd (by omega)⟩
      | payRead a =>
        by_cases ha : a.toNat < s.cfg.F - 20
        · exact ⟨_, by simp [perform, Machine.payRead, Config.cap_eq, ha, answerRead], .payRead r a hd ha⟩
        · exact ⟨_, by simp [perform, Machine.payRead, Config.cap_eq, ha, answerRead], .payReadOut r a hd (by omega)⟩
      | payWrite a b =>
        by_cases ha : a.toNat < s.cfg.F - 20
        · exact ⟨_, by simp [perform, Machine.payWrite, Config.cap_eq, ha, answerWrite], .payWrite r a b hd ha⟩
        · exact ⟨_, by simp [perform, Machine.payWrite, Config.cap_eq, ha, answerWrite], .payWriteOut r a b hd (by omega)⟩

/-- A next state after an event is one of the cases of `Handled`. -/
theorem handle_cases {e : HostEvent} (h : handle e s = .next t) : Handled s e t := by
  obtain ⟨u, hu, hc⟩ := handle_next (e := e) (by rintro rfl; cases h) s
  rw [hu] at h; cases h; exact hc

/-- A step with the event `e` pending, by the cases of `Handled`. -/
theorem step_cases {e : HostEvent} {rest : List HostEvent} (hp : s.pending = e :: rest) (h : step s = .next t) :
    Handled { s with pending := rest } e t := by
  rw [step_pending hp] at h
  exact handle_cases h

end Sys2Proof.Machine
end

