-- ==== Sys2Proof/Laws/Script.lean ====
section
/-! SUPPORT. Sys2Proof/Laws/Script.lean: what one script statement does, what loading and reading a buffer by script does,
and what the run of a pseudo-operation is. -/

namespace Sys2Proof.Machine

/-- An 8-bit write carries its byte. -/
theorem wdataByte_setWidth (b : Byte) : wdataByte (b.setWidth 32) = b := by
  refine BitVec.eq_of_toNat_eq ?_
  have := b.isLt
  simp only [wdataByte, BitVec.extractLsb'_toNat, BitVec.toNat_setWidth, Nat.shiftRight_zero]
  omega

/-! ### Bus forms: each is served as its transaction -/

theorem handle_bufWrite (a : Offset) (b : Byte) (s : State) :
    handle (.req (encodeBus (.bufWrite a b))) s = answerWrite (bufWrite a b s) s := by
  simp [handle, serve, encodeBus, decodeBus, decodeBuf, perform, wdataByte_setWidth]

theorem handle_payWrite (a : Offset) (b : Byte) (s : State) :
    handle (.req (encodeBus (.payWrite a b))) s = answerWrite (payWrite a b s) s := by
  simp [handle, serve, encodeBus, decodeBus, decodePay, perform, wdataByte_setWidth]

theorem handle_regWrite (r : Reg) (v : Word) (s : State) :
    handle (.req (encodeBus (.regWrite r v))) s = regWrite r v s := by
  simp [handle, serve, encodeBus, decodeBus_register, perform]

theorem handle_regRead (r : Reg) (s : State) :
    handle (.req (encodeBus (.regRead r))) s = answerRead (regRead r s) s := by
  simp [handle, serve, encodeBus, decodeBus_register, perform]

@[simp] theorem runScript_nil (s : State) : runScript [] s = .next s := rfl

@[simp] theorem runScript_cons (st : Stmt) (sts : List Stmt) (s : State) :
    runScript (st :: sts) s = andThen (handle (stmtEvent st) s) (runScript sts) := rfl

/-- `cmd i` runs the command. -/
theorem handle_cmd (i : Instr) (s : State) : handle (stmtEvent (.cmd i)) s = exec i (respond .ok s) := by
  have h : runCommand (encode i) (respond .ok s) = exec i (respond .ok s) := by cases i <;> rfl
  rw [← h]
  exact handle_regWrite .cmd (encode i) s

/-- `pw a, b0`; `pw a+1, b1`; ... inside the buffer store the bytes in `PAY`. -/
theorem runScript_pwFrom (bs : List Byte) (a : Nat) (s : State) (h : a + bs.length ≤ s.cfg.cap) :
    ∃ m r, runScript (pwFrom a bs) s = .next { s with pay := m, responses := s.responses ++ r } ∧
      ∀ x, m.read x = (s.pay.writeBytes a bs).read x := by
  induction bs generalizing a s with
  | nil =>
    refine ⟨s.pay, [], by simp [pwFrom], fun x => ?_⟩
    rw [Memory.read_writeBytes, dif_neg (by simp only [List.length_nil]; omega)]
  | cons b bs ih =>
    have hF := s.cfg.F_le
    have hcap := s.cfg.cap_add_header
    simp only [List.length_cons] at h
    have hoff : (BitVec.ofNat 16 a).toNat = a := by simp only [BitVec.toNat_ofNat]; omega
    have one : handle (stmtEvent (.pw a b.toNat)) s =
        .next (respond .ok { s with pay := s.pay.write a b }) := by
      have : stmtEvent (.pw a b.toNat) = .req (encodeBus (.payWrite (BitVec.ofNat 16 a) b)) := by
        simp [stmtEvent, stmtTransaction]
      rw [this, handle_payWrite, payWrite, hoff, if_pos (by omega)]
      rfl
    obtain ⟨m, r, hrun, hm⟩ := ih (a + 1) (respond .ok { s with pay := s.pay.write a b }) (by simp only [respond_cfg]; omega)
    refine ⟨m, [.ok] ++ r, ?_, fun x => ?_⟩
    · rw [pwFrom, runScript_cons, one, andThen_next, hrun]
      simp [respond]
    · rw [hm x]
      simp only [respond_pay, Memory.read_writeBytes, Memory.write, List.length_cons, List.length_nil]
      split
      · rename_i h1
        rw [dif_pos (by omega)]
        simp [show x - a = (x - (a + 1)) + 1 by omega]
      · rename_i h1
        split
        · rename_i h2
          rw [dif_pos (by omega)]
          simp [show x - a = 0 by omega]
        · rw [dif_neg (by omega)]

/-- `bw a, b0`; `bw a+1, b1`; ... inside the buffer store the bytes in `BUF`; what else changes is `VALID`. -/
theorem runScript_bwFrom (bs : List Byte) (a : Nat) (s : State) (h : a + bs.length ≤ s.cfg.F) :
    ∃ m v r, runScript (bwFrom a bs) s = .next { s with buf := m, valid := v, responses := s.responses ++ r } ∧
      ∀ x, m.read x = (s.buf.writeBytes a bs).read x := by
  induction bs generalizing a s with
  | nil =>
    refine ⟨s.buf, s.valid, [], by simp [bwFrom], fun x => ?_⟩
    rw [Memory.read_writeBytes, dif_neg (by simp only [List.length_nil]; omega)]
  | cons b bs ih =>
    have hF := s.cfg.F_le
    simp only [List.length_cons] at h
    have hoff : (BitVec.ofNat 16 a).toNat = a := by simp only [BitVec.toNat_ofNat]; omega
    have one : handle (stmtEvent (.bw a b.toNat)) s =
        .next (respond .ok (setValid false { s with buf := s.buf.write a b })) := by
      have : stmtEvent (.bw a b.toNat) = .req (encodeBus (.bufWrite (BitVec.ofNat 16 a) b)) := by
        simp [stmtEvent, stmtTransaction]
      rw [this, handle_bufWrite, bufWrite, hoff, if_pos (by omega)]
      rfl
    obtain ⟨m, v, r, hrun, hm⟩ :=
      ih (a + 1) (respond .ok (setValid false { s with buf := s.buf.write a b }))
        (by simp only [respond_cfg, setValid_cfg]; omega)
    refine ⟨m, v, [.ok] ++ r, ?_, fun x => ?_⟩
    · rw [bwFrom, runScript_cons, one, andThen_next, hrun]
      simp [respond, setValid]
    · rw [hm x]
      simp only [respond_buf, setValid_buf, Memory.read_writeBytes, Memory.write, List.length_cons, List.length_nil]
      split
      · rename_i h1
        rw [dif_pos (by omega)]
        simp [show x - a = (x - (a + 1)) + 1 by omega]
      · rename_i h1
        split
        · rename_i h2
          rw [dif_pos (by omega)]
          simp [show x - a = 0 by omega]
        · rw [dif_neg (by omega)]

/-- `loadbuf` leaves the bytes in `BUF`, their number in `BUFLEN`, and `VALID` clear. -/
theorem runScript_loadbuf (bs : List Byte) (s : State) (h : bs.length ≤ s.cfg.F) :
    ∃ m r,
      runScript (expand (.loadbuf bs)) s =
        .next { s with
          buf := m, buflen := BitVec.ofNat 32 bs.length, valid := false, responses := s.responses ++ r } ∧
      ∀ x, m.read x = (s.buf.writeBytes 0 bs).read x := by
  obtain ⟨m, v, r, hrun, hm⟩ := runScript_bwFrom bs 0 s (by omega)
  have hF := s.cfg.F_le
  refine ⟨m, r ++ [.ok], ?_, hm⟩
  have hlen : ¬ s.cfg.F < bs.length % 4294967296 := by omega
  rw [expand, runScript_append, hrun, andThen_next, runScript_cons]
  rw [show stmtEvent (.wr .buflen bs.length) = .req (encodeBus (.regWrite .buflen (BitVec.ofNat 32 bs.length))) from rfl]
  rw [handle_regWrite]
  simp [regWrite, writeBuflen, hlen, answerWrite, setValid, respond]

/-! ### Reading a buffer by script -/

theorem handle_bufRead (a : Offset) (s : State) :
    handle (.req (encodeBus (.bufRead a))) s = answerRead (bufRead a s) s := by
  simp [handle, serve, encodeBus, decodeBus, decodeBuf, perform]

/-- What `br a` answers: the byte, or `BusError` past the end of the buffer. -/
def bufAnswer (s : State) (a : Nat) : Response :=
  if a < s.cfg.F then .data ((s.buf.read a).setWidth 32) else .busError

/-- `br a` at an offset the bus can carry adds its answer and changes nothing else. -/
theorem handle_br (a : Nat) (s : State) (h : a < 2 ^ 16) :
    handle (stmtEvent (.br a)) s = .next (respond (bufAnswer s a) s) := by
  have hoff : (BitVec.ofNat 16 a).toNat = a := by simp only [BitVec.toNat_ofNat]; omega
  rw [show stmtEvent (.br a) = .req (encodeBus (.bufRead (BitVec.ofNat 16 a))) from rfl, handle_bufRead, bufRead, bufAnswer,
    hoff]
  split <;> rfl

/-- `br a`; `br a+1`; ... add their answers in order and change nothing else. -/
theorem runScript_brFrom (n a : Nat) (s : State) (h : a + n ≤ 2 ^ 16) :
    runScript (brFrom a n) s =
      .next { s with responses := s.responses ++ (List.range' a n).map (bufAnswer s) } := by
  induction n generalizing a s with
  | zero => simp [brFrom]
  | succ n ih =>
    rw [brFrom, runScript_cons, handle_br a s (by omega), andThen_next, ih (a + 1) _ (by omega)]
    have same : bufAnswer (respond (bufAnswer s a) s) = bufAnswer s := rfl
    rw [same]
    simp [respond, List.range'_succ]

/-! ### Pseudo-operations -/

/-- `rd r` of a register that can be read answers its value. -/
theorem handle_rd {r : Reg} {v : Word} {s : State} (h : regRead r s = .ok v) :
    handle (stmtEvent (.rd r)) s = .next (respond (.data v) s) := by
  rw [show stmtEvent (.rd r) = .req (encodeBus (.regRead r)) from rfl, handle_regRead, h]
  rfl

@[simp] theorem lastValue_append_data (l : List Response) (v : Word) : lastValue (l ++ [.data v]) = v.toNat := by
  simp [lastValue]

/-- Every pseudo-operation but `decodeFrame` is its expansion. -/
theorem runPseudo_of_ne {p : Pseudo} (h : p ≠ .decodeFrame) (s : State) : runPseudo p s = runScript (expand p) s := by
  have rest : ∀ answers, expandAfter p answers = [] := by cases p <;> first | exact absurd rfl h | exact fun _ => rfl
  rw [runPseudo]
  cases runScript (expand p) s <;> simp only [andThen, rest, runScript_nil]

/-- `loadbuf`'s statements are well formed. -/
theorem bwFrom_wf (bs : List Byte) (a : Nat) (h : a + bs.length ≤ 2 ^ 16) : ∀ st ∈ bwFrom a bs, st.wf = true := by
  induction bs generalizing a with
  | nil => simp [bwFrom]
  | cons b bs ih =>
    simp only [List.length_cons] at h
    intro st hst
    rcases List.mem_cons.mp hst with rfl | hst
    · simp [Stmt.wf, b.isLt]; omega
    · exact ih (a + 1) (by omega) st hst

/-- `loadpay`'s statements are well formed. -/
theorem pwFrom_wf (bs : List Byte) (a : Nat) (h : a + bs.length ≤ 2 ^ 16) : ∀ st ∈ pwFrom a bs, st.wf = true := by
  induction bs generalizing a with
  | nil => simp [pwFrom]
  | cons b bs ih =>
    simp only [List.length_cons] at h
    intro st hst
    rcases List.mem_cons.mp hst with rfl | hst
    · simp [Stmt.wf, b.isLt]; omega
    · exact ih (a + 1) (by omega) st hst

/-- `readbuf`'s statements are well formed. -/
theorem brFrom_wf (n a : Nat) (h : a + n ≤ 2 ^ 16) : ∀ st ∈ brFrom a n, st.wf = true := by
  induction n generalizing a with
  | zero => simp [brFrom]
  | succ n ih =>
    intro st hst
    rcases List.mem_cons.mp hst with rfl | hst
    · simp [Stmt.wf]; omega
    · exact ih (a + 1) (by omega) st hst

/-- The expansion of a well-formed pseudo-operation has well-formed statements only. -/
theorem expand_wf (c : Config) (p : Pseudo) (h : p.wf c = true) : ∀ st ∈ expand p, st.wf = true := by
  have hF := c.F_le
  have hcap := c.cap_add_header
  intro st hst
  cases p with
  | loadbuf bs =>
    simp only [Pseudo.wf, decide_eq_true_eq] at h
    rcases List.mem_append.mp hst with hst | hst
    · exact bwFrom_wf bs 0 (by omega) st hst
    · rw [List.mem_singleton.mp hst]; simp [Stmt.wf]; omega
  | loadpay bs =>
    simp only [Pseudo.wf, decide_eq_true_eq] at h
    rcases List.mem_append.mp hst with hst | hst
    · exact pwFrom_wf bs 0 (by omega) st hst
    · rw [List.mem_singleton.mp hst]; simp [Stmt.wf]; omega
  | readbuf n =>
    simp only [Pseudo.wf, decide_eq_true_eq] at h
    exact brFrom_wf n 0 (by omega) st hst
  | encode seq kind bs =>
    simp only [Pseudo.wf, Bool.and_eq_true, decide_eq_true_eq] at h
    rcases List.mem_append.mp hst with hst | hst
    · rcases List.mem_append.mp hst with hst | hst
      · simp only [List.mem_cons, List.not_mem_nil, or_false] at hst
        rcases hst with rfl | rfl <;> simp [Stmt.wf] <;> omega
      · exact pwFrom_wf bs 0 (by omega) st hst
    · simp only [List.mem_cons, List.not_mem_nil, or_false] at hst
      rcases hst with rfl | rfl | rfl <;> simp [Stmt.wf, Instr.wf]; omega
  | encodeReply seq status =>
    simp only [Pseudo.wf, Bool.and_eq_true, decide_eq_true_eq] at h
    simp only [expand, List.mem_cons, List.not_mem_nil, or_false] at hst
    rcases hst with rfl | rfl | rfl | rfl <;> simp [Stmt.wf, Instr.wf] <;> omega
  | verifyFrame | verifyReply | decodeFrame | decodeReply =>
    simp only [expand, List.mem_cons, List.not_mem_nil, or_false] at hst
    rcases hst with rfl | rfl | rfl | rfl | rfl <;> rfl

end Sys2Proof.Machine
end

