-- ==== Sys2Proof/Tests/Slice0.lean ====
section
/-! SUPPORT. Sys2Proof/Tests/Slice0.lean: the model's own tests. Expected results are the spec's: the words of 30_encoding.md
R70 and R75, and the vectors of 95_test_vectors.md, named in the comments. For every statement of the certificate that has
hypotheses, a witness meets them all. -/

open Sys2Proof Sys2Proof.Machine Sys2Proof.Claims

namespace Sys2Proof.Tests

/-! ### Helpers -/

/-- The byte string of a list of numbers. -/
def bytes (l : List Nat) : List Byte := l.map (BitVec.ofNat 8)

/-- The next state satisfies `p`. -/
def answers {α : Type} (x : Host.Outcome α Fault Refusal) (p : α → Bool) : Bool :=
  match x with
  | .next t => p t
  | .fault _ => false
  | .refused _ => false

/-- The reset state at `F = 32`, the instance of most vectors. -/
def at32 : State := State.resetOf { F := 32 }

/-- The reset state at `F = 20`, the smallest instance. -/
def at20 : State := State.resetOf { F := 20 }

/-- `s` with the bytes `bs` loaded. -/
def loaded (bs : List Byte) (s : State) : State :=
  { s with buf := Memory.cellsOf 0 bs, buflen := BitVec.ofNat 32 bs.length }

/-- `s` with one event pending. -/
def given (e : HostEvent) (s : State) : State := { s with pending := [e] }

/-- The hello frame, vector V-ENCF row 2. -/
def hello : List Byte :=
  bytes [0x00, 0x00, 0x00, 0x00, 0x82, 0x92, 0x6E, 0xBF, 0x00, 0x00, 0x00, 0x01, 0x00, 0x00, 0x00, 0x02] ++
  bytes [0x00, 0x00, 0x00, 0x05, 0x68, 0x65, 0x6C, 0x6C, 0x6F, 0x00, 0x00, 0x00, 0x00, 0x00, 0x00, 0x00]

/-- The Reply with `sequence` 0 and status Ack, vector V-ENCR row 1. -/
def ackZero : List Byte :=
  bytes [0x00, 0x00, 0x00, 0x00, 0x12, 0x25, 0xEF, 0xFF, 0x00, 0x00, 0x00, 0x00, 0x00, 0x00, 0x00, 0x01]

/-- The Reply with `sequence` 1 and status Ack, vector V-ENCR row 3. -/
def ackOne : List Byte :=
  bytes [0x00, 0x00, 0x00, 0x00, 0x2F, 0x45, 0xC6, 0x4F, 0x00, 0x00, 0x00, 0x01, 0x00, 0x00, 0x00, 0x01]

/-- The Reply with `sequence` 1 and status Nak, vector V-ENCR row 4. -/
def nakOne : List Byte :=
  bytes [0x00, 0x00, 0x00, 0x00, 0xB6, 0x4C, 0x97, 0xF5, 0x00, 0x00, 0x00, 0x01, 0x00, 0x00, 0x00, 0x02]

/-- The crafted frame whose `length` is 13 = `BUFLEN - 19`, vector V-DEC row 9. -/
def tooLongInside : List Byte :=
  bytes [0x00, 0x00, 0x00, 0x00, 0x29, 0x71, 0x85, 0x91, 0x00, 0x00, 0x00, 0x09, 0x00, 0x00, 0x00, 0x02] ++
  bytes [0x00, 0x00, 0x00, 0x0D, 0x11, 0x11, 0x11, 0x11, 0x11, 0x11, 0x11, 0x11, 0x11, 0x11, 0x11, 0x11]

/-- The operands of V-ENCF row 2: the payload "hello". -/
def helloOperands : State :=
  { at32 with seq := 1#32, disc := 2#32, len := 5#32, pay := Memory.cellsOf 0 (bytes [0x68, 0x65, 0x6C, 0x6C, 0x6F]) }

/-- The hello frame, verified. -/
def verified : State := { loaded hello at32 with valid := true, csum := 0x0000000082926EBF#64 }

/-- The Reply `ackZero`, verified. -/
def verifiedReply : State := { loaded ackZero at32 with valid := true, csum := 0x000000001225EFFF#64 }

/-- The sentinels of V-DEC. -/
def sentinels (s : State) : State := { s with seq := 0xAAAAAAAA#32, disc := 0xBBBBBBBB#32, len := 0xCCCCCCCC#32 }

/-! ### Well-formedness: an ill-formed term for each check, refused -/

/-- 00_scope.md R5: `F` is at least 20 and at most 65536. -/
theorem test_F_bounds : [legalF 19, legalF 20, legalF 65536, legalF 65537] = [false, true, true, false] := by decide

theorem test_wf_value_too_wide : (Stmt.wr .seq 0x100000000).wf = false := by decide
theorem test_wf_buf_byte_too_wide : (Stmt.bw 0 256).wf = false := by decide
theorem test_wf_buf_offset_too_wide : (Stmt.bw 65536 0).wf = false := by decide
theorem test_wf_buf_read_offset_too_wide : (Stmt.br 65536).wf = false := by decide
theorem test_wf_pay_byte_too_wide : (Stmt.pw 0 256).wf = false := by decide
theorem test_wf_pay_offset_too_wide : (Stmt.pw 65536 0).wf = false := by decide
theorem test_wf_pay_read_offset_too_wide : (Stmt.pr 65536).wf = false := by decide
theorem test_wf_loadbuf_too_long : (Pseudo.loadbuf (List.replicate 33 0#8)).wf at32.cfg = false := by decide
theorem test_wf_loadpay_too_long : (Pseudo.loadpay (List.replicate 13 0#8)).wf at32.cfg = false := by decide
theorem test_wf_readbuf_offset_too_wide : (Pseudo.readbuf 65537).wf at32.cfg = false := by decide
theorem test_wf_encode_too_long : (Pseudo.encode 0 1 (List.replicate 13 0#8)).wf at32.cfg = false := by decide
theorem test_wf_encode_seq_too_wide : (Pseudo.encode 0x100000000 1 []).wf at32.cfg = false := by decide
theorem test_wf_encode_kind_too_wide : (Pseudo.encode 0 0x100000000 []).wf at32.cfg = false := by decide
theorem test_wf_encodeReply_seq_too_wide : (Pseudo.encodeReply 0x100000000 1).wf at32.cfg = false := by decide
theorem test_wf_encodeReply_status_too_wide : (Pseudo.encodeReply 0 0x100000000).wf at32.cfg = false := by decide
theorem test_wf_accepts_the_bounds :
    ((Stmt.wr .seq 0xFFFFFFFF).wf && (Stmt.bw 65535 255).wf && (Pseudo.loadbuf hello).wf at32.cfg &&
      (Pseudo.loadpay (List.replicate 12 0#8)).wf at32.cfg && (Pseudo.readbuf 65536).wf at32.cfg &&
      Pseudo.decodeFrame.wf at32.cfg && Instr.encFrame.wf) = true := by decide

/-! ### Decoding: the words of 30_encoding.md R70, bit by bit (`zero` 24 bits, `op` 8 bits) -/

theorem test_decode_encFrame : decodeTableWord 32 0b00000000000000000000000000000001 = some .encFrame := by decide
theorem test_decode_encReply : decodeTableWord 32 0b00000000000000000000000000000010 = some .encReply := by decide
theorem test_decode_verFrame : decodeTableWord 32 0b00000000000000000000000000000011 = some .verFrame := by decide
theorem test_decode_verReply : decodeTableWord 32 0b00000000000000000000000000000100 = some .verReply := by decide
theorem test_decode_decFrame : decodeTableWord 32 0b00000000000000000000000000000101 = some .decFrame := by decide
theorem test_decode_decReply : decodeTableWord 32 0b00000000000000000000000000000110 = some .decReply := by decide

/-- V-ERR rows 7 to 13: words that are no command. -/
theorem test_decode_illegal :
    [0x00000000, 0x00000007, 0x000000FF, 0x00000100, 0x00000101, 0x80000001, 0xFFFFFFFF].map (decodeTableWord 32) =
      [none, none, none, none, none, none, none] := by decide

theorem test_decode_names_reserved_bits : decode 0x00000101#32 = .error .reservedBits := by rfl
theorem test_decode_names_unassigned : decode 0x00000007#32 = .error .unassignedOpcode := by rfl

/-- The bus forms of program P1 lines 1, 3, 9 and 14 (30_encoding.md R75). -/
theorem test_bus_forms :
    (stmtEvent (.wr .seq 1), stmtEvent (.pw 0 0x68), stmtEvent (.cmd .encFrame), stmtEvent (.br 0)) =
      (.req ⟨true, .word, 0x00008#18, 0x00000001#32⟩, .req ⟨true, .byte, 0x20000#18, 0x68#32⟩,
       .req ⟨true, .word, 0x00000#18, 0x00000001#32⟩, .req ⟨false, .byte, 0x10000#18, 0#32⟩) := by decide

/-- Program P2: `decodeFrame` of the verified hello frame answers `STAT`, the three fields and the five bytes "hello". -/
theorem test_decodeFrame_reads_hello :
    answers (runPseudo .decodeFrame verified) (fun t => t.responses =
      [.ok, .data 0x00000001#32, .data 0x00000001#32, .data 0x00000002#32, .data 0x00000005#32, .data 0x68#32, .data 0x65#32,
       .data 0x6C#32, .data 0x6C#32, .data 0x6F#32]) = true := by decide +kernel

/-! ### The checksum: V-CRC -/

theorem test_crc_empty : crc32 [] = 0x00000000#32 := by decide
theorem test_crc_zero : crc32 (bytes [0x00]) = 0xD202EF8D#32 := by decide
theorem test_crc_four_ff : crc32 (bytes [0xFF, 0xFF, 0xFF, 0xFF]) = 0xFFFFFFFF#32 := by decide
theorem test_crc_reply_body : crc32 (ackZero.drop 8) = 0x1225EFFF#32 := by decide +kernel
theorem test_crc_992_zeros : crc32 (List.replicate 992 0#8) = 0x2F2091FA#32 := by decide +kernel

/-- The first three shift steps of the byte `00` (V-CRC, step by step). -/
theorem test_crc_steps :
    (crcBit 0xFFFFFFFF#32, crcBit 0x92477CDF#32, crcBit 0xA49B3D4F#32) =
      (0x92477CDF#32, 0xA49B3D4F#32, 0xBFF51D87#32) := by decide

/-! ### The commands, one step each -/

/-- V-ENCF row 2. -/
theorem test_encFrame_hello :
    answers (step (helloOperands.withFetchWord 32 1)) (fun t => t.buf.readBytes 0 32 = hello ∧ t.buflen = 32#32) = true := by
  decide +kernel

/-- V-ERR row 18: the comparison of `LEN` is unsigned, and `E_TOOLONG` comes first. -/
theorem test_encFrame_unsigned :
    answers (step ({ at32 with len := 0xFFFFFFFF#32 }.withFetchWord 32 1)) (fun t => statWord t = 0x00000200#32) = true := by
  decide

/-- V-ENCR-TAIL: `BUF[16:F]` stays. -/
theorem test_encReply_tail :
    answers (step ({ loaded hello at32 with seq := 1#32, disc := 1#32 }.withFetchWord 32 2))
      (fun t => t.buf.readBytes 0 16 = ackOne ∧ t.buf.readBytes 16 16 = hello.drop 16 ∧ t.buflen = 16#32) = true := by
  decide +kernel

/-- V-ERR row 20: all 32 bits of `DISC` are compared. -/
theorem test_encReply_disc :
    answers (step ({ at32 with disc := 0x00000101#32 }.withFetchWord 32 2)) (fun t => statWord t = 0x00000300#32) = true := by
  decide

/-- V-VER row 8: a sign-extended stored checksum is invalid. -/
theorem test_verFrame_high_bytes :
    answers (step ((loaded (bytes [0xFF, 0xFF, 0xFF, 0xFF] ++ hello.drop 4) at32).withFetchWord 32 3))
      (fun t => t.csum = 0x0000000082926EBF#64 ∧ t.valid = false) = true := by decide +kernel

/-- V-VER row 11: 19 bytes are too short for `VER_FRAME`, and `CSUM` stays. -/
theorem test_verFrame_short :
    answers (step ((loaded (hello.take 19) { at32 with csum := 7#64 }).withFetchWord 32 3))
      (fun t => t.csum = 7#64 ∧ t.valid = false) = true := by decide +kernel

/-- V-VER row 12: the same 19 bytes are long enough for `VER_REPLY`. -/
theorem test_verReply_19 :
    answers (step ((loaded (hello.take 19) at32).withFetchWord 32 4))
      (fun t => t.csum = 0x000000000D2479F9#64 ∧ t.valid = false) = true := by decide +kernel

/-- V-VER row 14. -/
theorem test_verReply_valid :
    answers (step ((loaded ackZero at32).withFetchWord 32 4))
      (fun t => t.csum = 0x000000001225EFFF#64 ∧ t.valid = true) = true := by decide +kernel

/-- V-DEC row 1. -/
theorem test_decFrame_fields :
    answers (step (verified.withFetchWord 32 5))
      (fun t => (t.seq, t.disc, t.len) = (1#32, 2#32, 5#32) ∧ payloadSlice t = bytes [0x68, 0x65, 0x6C, 0x6C, 0x6F]) = true := by
  decide +kernel

/-- V-DEC row 9: `E_LENGTH`, and the registers keep the sentinels. -/
theorem test_decFrame_length :
    answers (step ((sentinels { loaded tooLongInside at32 with valid := true }).withFetchWord 32 5))
      (fun t => statWord t = 0x00000601#32 ∧ (t.seq, t.disc, t.len) = (0xAAAAAAAA#32, 0xBBBBBBBB#32, 0xCCCCCCCC#32)) =
      true := by decide +kernel

/-- V-DEC row 17: `LEN` keeps the sentinel. -/
theorem test_decReply_fields :
    answers (step ((sentinels verifiedReply).withFetchWord 32 6))
      (fun t => statWord t = 0x00000001#32 ∧ (t.seq, t.disc, t.len) = (0#32, 1#32, 0xCCCCCCCC#32)) = true := by
  decide +kernel

/-- V-DEC row 25: not verified. -/
theorem test_decReply_gate :
    answers (step ((loaded ackZero at32).withFetchWord 32 6)) (fun t => statWord t = 0x00000400#32) = true := by decide

/-! ### The bus: V-BUS and its accepted counterparts -/

/-- The response to one request. -/
def responseTo (r : BusReq) (s : State) : Option Response :=
  match step (given (.req r) s) with
  | .next t => t.responses.getLast?
  | .fault _ => none
  | .refused _ => none

/-- V-BUS rows 1 to 19. -/
theorem test_bus_refused :
    ([⟨false, .word, 0x00000#18, 0#32⟩, ⟨true, .word, 0x00004#18, 1#32⟩, ⟨true, .word, 0x00018#18, 0#32⟩,
      ⟨true, .word, 0x0001C#18, 0#32⟩, ⟨true, .word, 0x00020#18, 0x20#32⟩, ⟨true, .word, 0x00014#18, 0x21#32⟩,
      ⟨true, .word, 0x00014#18, 0xFFFFFFFF#32⟩, ⟨false, .byte, 0x10020#18, 0#32⟩, ⟨true, .byte, 0x10020#18, 0#32⟩,
      ⟨false, .byte, 0x2000C#18, 0#32⟩, ⟨true, .byte, 0x2000C#18, 0#32⟩, ⟨false, .word, 0x00024#18, 0#32⟩,
      ⟨false, .word, 0x0FFFC#18, 0#32⟩, ⟨false, .word, 0x30000#18, 0#32⟩, ⟨false, .word, 0x00006#18, 0#32⟩,
      ⟨false, .byte, 0x00004#18, 0#32⟩, ⟨true, .byte, 0x00008#18, 1#32⟩, ⟨false, .word, 0x10000#18, 0#32⟩,
      ⟨true, .word, 0x20000#18, 0x01020304#32⟩] : List BusReq).all (fun r => responseTo r at32 = some .busError) = true := by
  decide

/-- The accepted counterparts of V-BUS. -/
theorem test_bus_accepted :
    (responseTo ⟨true, .word, 0x00014#18, 32#32⟩ at32, responseTo ⟨false, .byte, 0x1001F#18, 0#32⟩ at32,
     responseTo ⟨true, .byte, 0x2000B#18, 0xAB#32⟩ at32, responseTo ⟨false, .word, 0x00020#18, 0#32⟩ at32,
     responseTo ⟨true, .word, 0x00000#18, 0xFFFFFFFF#32⟩ at32, responseTo ⟨false, .byte, 0x20000#18, 0#32⟩ at20) =
    (some .ok, some (.data 0#32), some .ok, some (.data 0x20#32), some .ok, some .busError) := by decide

/-- 20_memory.md R47: an 8-bit write ignores bits 31:8 of the data. -/
theorem test_byte_write_ignores_high_bits :
    answers (step (given (.req ⟨true, .byte, 0x1001F#18, 0xFFFFFFAB#32⟩) verified))
      (fun t => t.buf.read 31 = 0xAB#8 ∧ t.valid = false) = true := by decide

/-- V-ERR row 29: `VALID` survives a write of `PAY`. -/
theorem test_pay_write_keeps_valid :
    answers (step (given (.req ⟨true, .byte, 0x20000#18, 0x99#32⟩) verified))
      (fun t => t.pay.read 0 = 0x99#8 ∧ t.valid = true) = true := by decide

/-! ### The hosts: E7 at `F = 32`, programs P2 and P4 -/

/-- A sender about to send the data unit of E7. -/
def senderOne : Sender := { units := [(2#32, bytes [0x68, 0x65, 0x6C, 0x6C, 0x6F])], nextSeq := 1 }

/-- A receiver that waits for that unit. -/
def receiverOne : Receiver := { expected := 1, sink := some (bytes [0x6F], []) }

/-- Program P2, once the hello frame is decoded: delivered and acknowledged. -/
theorem test_receiver_delivers_hello :
    answers (receiverJudge {} true receiverOne { verified with seq := 1#32, disc := 2#32, len := 5#32 })
      (fun x => x.reply = some ackOne ∧ x.receiver.expected = 2 ∧
        x.receiver.sink = some (bytes [0x6F], bytes [0x68, 0x65, 0x6C, 0x6C, 0x6F])) = true := by decide +kernel

/-- Program P4, replies 2 and 3, once decoded: a Nak makes the sender resend, the Ack ends the unit. -/
theorem test_sender_judges_replies :
    answers (senderJudge {} { senderOne with phase := .awaitingAck, sentSeq := 1, frame := hello }
        { verifiedReply with seq := 1#32, disc := 2#32 })
      (fun x => x.datagram = some hello ∧ x.sender.phase = .awaitingAck) = true ∧
    answers (senderJudge {} { senderOne with phase := .awaitingAck, sentSeq := 1, frame := hello }
        { verifiedReply with seq := 1#32, disc := 1#32 })
      (fun x => x.datagram = none ∧ x.sender.phase = .awaitingTransmit) = true := by decide

/-- 60_exceptions.md R145 items 4 and 5: 0xFFFFFFFF as the predecessor of 0, under the four ways to count. -/
theorem test_duplicate_at_zero :
    [(true, false), (true, true), (false, false), (false, true)].map (fun x =>
      isDuplicate { wrapsSequence := x.1, signedSequence := x.2 } { expected := 0 } 0xFFFFFFFF#32) =
    [true, true, false, true] := by decide

/-! ### Witnesses: for each statement with hypotheses, inputs that meet them all, at the boundaries of its clauses -/

/-- A next state follows each of the events, on its own. -/
def stepsOn (s : State) (es : List HostEvent) : Bool := es.all fun e => answers (step (given e s)) fun _ => true

/-- The event of a transaction. -/
def tx (t : Transaction) : HostEvent := .req (encodeBus t)

theorem witness_ResetLeavesTheSpecValues : 31 < at32.cfg.F ∧ 11 < at32.cfg.F - 20 := by decide

theorem witness_ResetEventRestoresTheResetState :
    (given .reset verified).pending = .reset :: [] ∧
    (given (.resetDuring (cmdRequest 3#32)) verified).pending = .resetDuring (cmdRequest 3#32) :: [] := ⟨rfl, rfl⟩

theorem witness_BusMapDecodesExactlyItsTransactions :
    decodeBus ⟨true, .byte, 0x1001F#18, 0xFFFFFFAB#32⟩ = .ok (.bufWrite 31#16 0xAB#8) ∧
    decodeBus ⟨false, .word, 0x00020#18, 5#32⟩ = .ok (.regRead .fsize) ∧
    decodeBus ⟨true, .byte, 0x2FFFF#18, 1#32⟩ = .ok (.payWrite 0xFFFF#16 1#8) := ⟨rfl, rfl, rfl⟩

theorem witness_StepRunsTheDecodedCommand :
    (given (.req (cmdRequest 1#32)) helloOperands).pending = .req (cmdRequest 1#32) :: [] ∧
    decode 1#32 = .ok .encFrame ∧ decodeTableWord 32 6 = some .decReply := ⟨rfl, rfl, by decide⟩

theorem witness_IllegalWordSetsOnlyErr :
    (given (.req (cmdRequest 7#32)) verified).pending = .req (cmdRequest 7#32) :: [] ∧
    (0x00000101#32).extractLsb' 8 24 ≠ 0#24 ∧ (0#32).extractLsb' 0 8 = 0#8 ∧ 7 ≤ ((7#32).extractLsb' 0 8).toNat ∧
    7 ≤ ((0xFF#32).extractLsb' 0 8).toNat := ⟨rfl, by decide⟩

theorem witness_EncFrameBuildsTheFrame :
    (at32.cfg.F - 20 < (13#32).toNat ∧ (12#32).toNat ≤ at32.cfg.F - 20 ∧ (0#32).toNat ≤ at20.cfg.F - 20) ∧
    ¬ LegalDisc { at32 with len := 12#32, disc := 3#32 } ∧ ¬ LegalDisc at32 ∧
    LegalDisc { at32 with len := 12#32, disc := 1#32 } ∧ LegalDisc { at20 with disc := 2#32 } := by
  unfold LegalDisc; decide

theorem witness_EncReplyBuildsTheReply :
    ¬ LegalDisc at32 ∧ ¬ LegalDisc { at32 with disc := 3#32 } ∧ LegalDisc { at32 with disc := 1#32 } ∧
    LegalDisc { at32 with disc := 2#32 } := by
  unfold LegalDisc; decide

theorem witness_VerFrameComparesTheChecksum :
    (loaded (hello.take 19) at32).buflen.toNat < 20 ∧ 20 ≤ (loaded (hello.take 20) at32).buflen.toNat := by decide

theorem witness_VerReplyComparesTheChecksum :
    (loaded (ackZero.take 15) at32).buflen.toNat < 16 ∧ 16 ≤ (loaded ackZero at32).buflen.toNat := by decide

theorem witness_VerifyCommandsAgreeFromTwentyBytes : 20 ≤ (loaded (hello.take 20) at32).buflen.toNat := by decide

theorem witness_DecFrameExtractsTheFields :
    (loaded hello at32).valid = false ∧
    (verifiedReply.valid = true ∧ verifiedReply.buflen.toNat < 20) ∧
    ({ loaded tooLongInside at32 with valid := true }.buflen.toNat - 20 < (rdBe32 (loaded tooLongInside at32).buf 16).toNat) ∧
    (verified.valid = true ∧ 20 ≤ verified.buflen.toNat ∧
      (rdBe32 verified.buf 16).toNat ≤ verified.buflen.toNat - 20) := by decide

theorem witness_DecReplyExtractsTheFields :
    (loaded ackZero at32).valid = false ∧
    ({ at32 with valid := true, buflen := 15#32 }.buflen.toNat < 16) ∧
    (verifiedReply.valid = true ∧ 16 ≤ verifiedReply.buflen.toNat) := by decide

/-- The verified hello frame has the invariants. -/
theorem inv_verified : verified.Inv := by
  constructor <;> decide +kernel

/-- The verified Reply has the invariants. -/
theorem inv_verifiedReply : verifiedReply.Inv := by
  constructor <;> decide +kernel

theorem witness_DecReplyNeverShortUnderTheInvariants :
    verifiedReply.Inv ∧ ∃ t, exec .decReply verifiedReply = .next t := ⟨inv_verifiedReply, _, rfl⟩

/-- The commands with every outcome their checks have: `LEN` at 12 and 13, `DISC` at 2 and 3, `BUFLEN` at 16, 19, 20. -/
theorem witness_FirstFailingCheckIsReported :
    [0, 1, 2, 3, 4, 5, 6, 7].all (fun w =>
      [at32, { at32 with len := 12#32, disc := 2#32 }, { at32 with len := 13#32, disc := 2#32 },
       { at32 with len := 12#32, disc := 3#32 }, loaded ackZero at32, loaded (hello.take 19) at32,
       loaded (hello.take 20) at32, verified, verifiedReply, { loaded tooLongInside at32 with valid := true }].all
        fun s => answers (runCommand (BitVec.ofNat 32 w) s) fun _ => true) = true := by decide +kernel

theorem witness_FailedCommandWritesOnlyErr :
    (given (.req (cmdRequest 5#32)) at32).pending = .req (cmdRequest 5#32) :: [] ∧
    answers (step (given (.req (cmdRequest 5#32)) at32)) (fun t => t.err ≠ 0x00#8) = true := ⟨rfl, by decide⟩

/-- Events of every clause of the statements about who writes what. -/
def everyEvent : List HostEvent :=
  [.reset, .resetDuring (cmdRequest 1#32), tx (.bufWrite 31#16 1#8), tx (.bufWrite 32#16 1#8), tx (.payWrite 11#16 1#8),
   tx (.payWrite 12#16 1#8), tx (.regWrite .buflen 32#32), tx (.regWrite .buflen 33#32), tx (.regWrite .seq 5#32),
   tx (.regWrite .disc 5#32), tx (.regWrite .len 5#32), tx (.regWrite .stat 5#32), tx (.regRead .stat), tx (.regRead .cmd),
   .req (cmdRequest 0#32), .req (cmdRequest 1#32), .req (cmdRequest 2#32), .req (cmdRequest 3#32),
   .req (cmdRequest 4#32), .req (cmdRequest 5#32), .req (cmdRequest 6#32), .req (cmdRequest 7#32)]

/-- Every clause of `OnlyTheseEventsWriteValid`, at `LEN` 12 and 13, `DISC` 2 and 3, and `BUFLEN` 15, 16, 19 and 20. -/
theorem witness_OnlyTheseEventsWriteValid :
    [verified, { verified with len := 12#32, disc := 2#32 }, { verified with len := 13#32, disc := 3#32 },
     { verified with buflen := 15#32 }, { verified with buflen := 16#32 }, { verified with buflen := 19#32 },
     { verified with buflen := 20#32 }].all (stepsOn · everyEvent) = true ∧
    verified.Inv ∧ answers (step (given (tx (.regRead .stat)) verified)) (fun t => t.valid) = true :=
  ⟨by decide +kernel, inv_verified, by decide⟩

theorem witness_OnlyCmdWritesAndResetWriteErr :
    (stepsOn verified everyEvent = true ∧ isCmdWrite (tx (.regWrite .seq 5#32)) = false ∧ isCmdWrite .reset = false) ∧
    (given (.req (cmdRequest 0#32)) verified).pending = .req (cmdRequest 0#32) :: [] := by
  refine ⟨?_, rfl⟩
  decide +kernel

theorem witness_OnlyTheseEventsWriteCsum :
    [{ verified with len := 12#32, disc := 2#32 }, { verified with len := 13#32, disc := 3#32 },
     { verified with buflen := 19#32 }, { verified with buflen := 15#32 }].all (stepsOn · everyEvent) = true := by
  decide +kernel

theorem witness_OnlyTheseEventsWriteTheOperandRegisters :
    [verified, verifiedReply, { verified with disc := 3#32 }, at32].all (stepsOn · everyEvent) = true := by decide +kernel

theorem witness_OnlyPayWritesAndResetWritePay : stepsOn verified everyEvent = true := by decide +kernel

/-- A write of `BUF[15]`, beside offset 16. -/
theorem witness_PayloadSliceStaysUntilOverwritten :
    ∃ t, step (given (tx (.bufWrite 15#16 1#8)) verified) = .next t ∧
      tx (.bufWrite 15#16 1#8) ≠ .reset ∧ (∀ r, tx (.bufWrite 15#16 1#8) ≠ .resetDuring r) ∧
      (∀ r w, tx (.bufWrite 15#16 1#8) = .req r → decodeBus r = .ok (.regWrite .cmd w) → decode w ≠ .ok .encFrame) ∧
      ∀ r x b, tx (.bufWrite 15#16 1#8) = .req r → decodeBus r = .ok (.bufWrite x b) → x.toNat ≠ 16 := by
  have hd : decodeBus (encodeBus (.bufWrite 15#16 1#8)) = .ok (.bufWrite 15#16 1#8) := rfl
  refine ⟨_, rfl, by decide, fun r h => (by cases h), ?_, ?_⟩
  · intro r w h hw
    cases h
    rw [hd] at hw; cases hw
  · intro r x b h hw
    cases h
    rw [hd] at hw; cases hw
    decide

/-- Each case of 20_memory.md R45 at the edges of its range, and the neighbours that are accepted. -/
theorem witness_RefusedExactlyInTheSixCases :
    (∀ r ∈ [wordRead 0x00024#18 0#32, wordRead 0x0FFFC#18 0#32, byteRead 0x10020#18 0#32, byteRead 0x1FFFF#18 0#32,
       byteRead 0x2000C#18 0#32, byteRead 0x2FFFF#18 0#32, byteRead 0x30000#18 0#32, byteRead 0x00004#18 0#32,
       wordRead 0x10000#18 0#32, wordRead 0x00006#18 0#32, wordRead 0x00000#18 0#32, wordWrite 0x00004#18 0#32,
       wordWrite 0x00018#18 0#32, wordWrite 0x0001C#18 0#32, wordWrite 0x00020#18 0#32, wordWrite 0x00014#18 33#32], Refused at32 r) ∧
    ∀ r ∈ [wordRead 0x00020#18 0#32, byteRead 0x1001F#18 0#32, byteWrite 0x2000B#18 0#32, wordWrite 0x00014#18 32#32,
       wordWrite 0x00000#18 0xFFFFFFFF#32], ¬ Refused at32 r := by
  simp only [Refused]
  decide

/-- A `CMD` write with a word below, at and above the opcode map, and a refused and an accepted request of another kind. -/
theorem witness_FaultChannelsAreDisjoint :
    stepsOn verified [.req (cmdRequest 0#32), .req (cmdRequest 6#32), .req (cmdRequest 7#32), tx (.bufRead 32#16),
      tx (.bufRead 31#16)] = true ∧
    isCmdWrite (.req (cmdRequest 7#32)) = true ∧ isCmdWrite (tx (.bufRead 32#16)) = false ∧
    responseTo (encodeBus (.bufRead 32#16)) verified = some .busError := by decide +kernel

/-- A run of one illegal command. -/
theorem witness_DecodeNeedsAVerifySinceTheLastChange :
    at32.valid = false ∧ decode 7#32 ≠ .ok .verFrame ∧ decode 7#32 ≠ .ok .verReply ∧
    ∃ t, runEvents [.req (cmdRequest 7#32)] at32 = .next t := by
  have h : decode 7#32 = .error .unassignedOpcode := rfl
  rw [h]
  exact ⟨rfl, by simp, by simp, _, rfl⟩

theorem witness_RegisterReadsAnswerTheRegisters :
    (given (.req (wordRead 0x04#18 0#32)) verified).pending = .req (wordRead 0x04#18 0#32) :: [] ∧
    ((0x0001#32).toNat = verified.err.toNat * 256 + verified.valid.toNat) ∧
    verified.csum.extractLsb' 32 32 = 0#32 ∧ verified.csum.extractLsb' 0 32 = 0x82926EBF#32 ∧
    (32#32).toNat = verified.cfg.F := ⟨rfl, by decide⟩

theorem witness_RegisterWritesChangeTheRegister :
    (given (.req (wordWrite 0x14#18 32#32)) verified).pending = .req (wordWrite 0x14#18 32#32) :: [] ∧
    (given (.req (wordWrite 0x08#18 5#32)) verified).pending = .req (wordWrite 0x08#18 5#32) :: [] ∧
    (given (.req (wordWrite 0x0C#18 5#32)) verified).pending = .req (wordWrite 0x0C#18 5#32) :: [] ∧
    (given (.req (wordWrite 0x10#18 5#32)) verified).pending = .req (wordWrite 0x10#18 5#32) :: [] ∧
    (32#32).toNat ≤ verified.cfg.F := ⟨rfl, rfl, rfl, rfl, by decide⟩

theorem witness_BufferReadsAnswerTheByte :
    (31 < verified.cfg.F ∧ 11 < verified.cfg.F - 20) ∧
    (given (.req (byteRead (BitVec.ofNat 18 (0x10000 + 31)) 0#32)) verified).pending =
      .req (byteRead (BitVec.ofNat 18 (0x10000 + 31)) 0#32) :: [] ∧
    (given (.req (byteRead (BitVec.ofNat 18 (0x20000 + 11)) 0#32)) verified).pending =
      .req (byteRead (BitVec.ofNat 18 (0x20000 + 11)) 0#32) :: [] := ⟨by decide, rfl, rfl⟩

theorem witness_BufferWritesStoreTheByte :
    (31 < verified.cfg.F ∧ 11 < verified.cfg.F - 20) ∧
    (given (.req (byteWrite (BitVec.ofNat 18 (0x10000 + 31)) 0xAB#32)) verified).pending =
      .req (byteWrite (BitVec.ofNat 18 (0x10000 + 31)) 0xAB#32) :: [] ∧
    (given (.req (byteWrite (BitVec.ofNat 18 (0x20000 + 11)) 0xAB#32)) verified).pending =
      .req (byteWrite (BitVec.ofNat 18 (0x20000 + 11)) 0xAB#32) :: [] := ⟨by decide, rfl, rfl⟩

theorem witness_ReadsChangeNothing :
    (given (.req (wordRead 0x00#18 0#32)) verified).pending = .req (wordRead 0x00#18 0#32) :: [] ∧
    (wordRead 0x00#18 0#32).write = false := ⟨rfl, rfl⟩

theorem witness_OneResponsePerRequestInOrder :
    (given (.req (wordRead 0x04#18 0#32)) verified).pending = .req (wordRead 0x04#18 0#32) :: [] := rfl

theorem witness_RepeatingACommandChangesNothingMore :
    verified.Inv ∧ ∃ t, runCommand 5#32 verified = .next t := ⟨inv_verified, _, rfl⟩

theorem witness_StepGoesOnUnlessTheHandshakeBreaks :
    (∀ rest, (given .reset verified).pending ≠ .breaksHandshake :: rest) ∧
    (given .breaksHandshake verified).pending = .breaksHandshake :: [] := ⟨fun _ h => (by cases h), rfl⟩

theorem witness_EveryStepKeepsTheInvariants :
    (given (tx (.regWrite .seq 5#32)) verified).Inv ∧ ∃ t, step (given (tx (.regWrite .seq 5#32)) verified) = .next t :=
  ⟨⟨inv_verified.1, inv_verified.2, inv_verified.3, inv_verified.4, inv_verified.5, inv_verified.6, inv_verified.7,
    inv_verified.8, inv_verified.9⟩, _, rfl⟩

theorem witness_CrcDetectsEveryOneByteChange : (0x00#8 : Byte) ≠ 0x01#8 := by decide

theorem witness_CrcDetectsEveryFourByteBurst :
    (bytes [0, 0, 0, 0]).length = 4 ∧ (bytes [0, 0, 0, 1]).length = 4 ∧ bytes [0, 0, 0, 0] ≠ bytes [0, 0, 0, 1] := by decide

/-- The first and the last byte of a Frame, and the last byte of a Reply. -/
theorem witness_ChangedBufferNeverVerifies :
    (verified.Inv ∧ verified.valid = true ∧ 0 < verified.buflen.toNat ∧ 0x01#8 ≠ verified.buf.read 0 ∧
      31 < verified.buflen.toNat ∧ 0x80#8 ≠ verified.buf.read 31) ∧
    (verifiedReply.Inv ∧ verifiedReply.valid = true ∧ 15 < verifiedReply.buflen.toNat ∧
      0x02#8 ≠ verifiedReply.buf.read 15) :=
  ⟨⟨inv_verified, by decide⟩, inv_verifiedReply, by decide⟩

theorem witness_EncodedBufferVerifies :
    LegalDisc helloOperands ∧ helloOperands.len.toNat ≤ helloOperands.cfg.F - 20 ∧ (12#32).toNat ≤ at32.cfg.F - 20 := by
  unfold LegalDisc; decide

/-- The longest payload at `F = 32` and the empty one at `F = 20`. -/
theorem witness_FrameRoundTrip :
    ((1#32 : Word) = 1#32 ∨ (1#32 : Word) = 2#32) ∧ (List.replicate 12 0xAB#8).length ≤ at32.cfg.F - 20 ∧
    ([] : List Byte).length ≤ at20.cfg.F - 20 := by decide

theorem witness_ReplyRoundTrip : (2#32 : Word) = 1#32 ∨ (2#32 : Word) = 2#32 := by decide

/-- The same operands over two different buffers. -/
theorem witness_EncodeDependsOnItsOperandsAlone :
    LegalDisc helloOperands ∧ helloOperands.len.toNat ≤ helloOperands.cfg.F - 20 ∧
    (∃ t, exec .encFrame helloOperands = .next t) ∧ (∃ t, exec .encFrame (loaded ackOne helloOperands) = .next t) ∧
    (∃ t, exec .encReply helloOperands = .next t) ∧ ∃ t, exec .encReply (loaded ackOne helloOperands) = .next t :=
  ⟨.inr rfl, by decide, ⟨_, rfl⟩, ⟨_, rfl⟩, ⟨_, rfl⟩, ⟨_, rfl⟩⟩

/-- `s` with another byte at offset `a`, which the command under test is not to read. -/
def differsAt (a : Nat) (s : State) : State := { s with buf := s.buf.write a 0xAB#8 }

/-- The verify clauses at `BUFLEN` 20 and 16, where the buffers differ at the first byte past `BUFLEN`, and at 19 and 15. -/
theorem witness_VerifyAndDecodeReadOnlyTheirOperands_verify :
    [loaded (hello.take 20) at32, loaded (hello.take 19) at32, loaded ackZero at32, loaded (ackZero.take 15) at32].all
      (fun s =>
        s.buf.readBytes 0 s.buflen.toNat = (differsAt s.buflen.toNat s).buf.readBytes 0 s.buflen.toNat ∧
        s.buf.read s.buflen.toNat ≠ (differsAt s.buflen.toNat s).buf.read s.buflen.toNat ∧
        [Instr.verFrame, .verReply].all (fun i =>
          answers (exec i s) (fun _ => true) && answers (exec i (differsAt s.buflen.toNat s)) fun _ => true) = true) = true := by
  decide +kernel

/-- The decode clauses: `DEC_FRAME` at `BUFLEN` 20 with buffers that differ at byte 20, and at 19 with buffers that differ
at byte 16, which it then does not read; `DEC_REPLY` at 16 and 15 with buffers that differ at byte 16 and at byte 8. -/
theorem witness_VerifyAndDecodeReadOnlyTheirOperands_decode :
    (let s := { loaded (hello.take 20) at32 with valid := true }
     20 ≤ s.buflen.toNat ∧ s.buf.readBytes 8 12 = (differsAt 20 s).buf.readBytes 8 12 ∧
       (answers (exec .decFrame s) fun _ => true) = true ∧ (answers (exec .decFrame (differsAt 20 s)) fun _ => true) = true) ∧
    (let s := { loaded (hello.take 19) at32 with valid := true }
     s.buflen.toNat = 19 ∧ s.buf.read 16 ≠ (differsAt 16 s).buf.read 16 ∧
       (answers (exec .decFrame s) fun _ => true) = true ∧ (answers (exec .decFrame (differsAt 16 s)) fun _ => true) = true) ∧
    (verifiedReply.buflen.toNat = 16 ∧ verifiedReply.buf.readBytes 8 8 = (differsAt 16 verifiedReply).buf.readBytes 8 8 ∧
      verifiedReply.buf.read 16 ≠ (differsAt 16 verifiedReply).buf.read 16 ∧
      (answers (exec .decReply verifiedReply) fun _ => true) = true ∧
      (answers (exec .decReply (differsAt 16 verifiedReply)) fun _ => true) = true) ∧
    (let s := { loaded (ackZero.take 15) at32 with valid := true }
     s.buflen.toNat = 15 ∧ s.buf.read 8 ≠ (differsAt 8 s).buf.read 8 ∧
       (answers (exec .decReply s) fun _ => true) = true ∧ (answers (exec .decReply (differsAt 8 s)) fun _ => true) = true) := by
  decide +kernel

theorem witness_StepsAreTheRunOfThePendingEvents :
    { at32 with pending := everyEvent ++ [HostEvent.breaksHandshake] }.pending = everyEvent ++ [.breaksHandshake] := rfl

/-- A safe run: the hello frame is verified again and decoded. -/
theorem witness_SafeRunReachesItsEnd :
    safeRun [.req (cmdRequest 3#32), .req (cmdRequest 5#32), tx (.regRead .seq)] verified = true ∧ verified.err = 0x00#8 := by
  decide +kernel

theorem witness_OneRoundTripDeliversTheUnit :
    senderOne.phase = .awaitingTransmit ∧ senderOne.units = (2#32, bytes [0x68, 0x65, 0x6C, 0x6C, 0x6F]) :: [] ∧
    (bytes [0x68, 0x65, 0x6C, 0x6C, 0x6F]).length ≤ at32.cfg.F - 20 ∧ verified.cfg = at32.cfg ∧
    receiverOne.failed = false ∧ receiverOne.expected = senderOne.nextSeq ∧
    [(true, false, 1), (true, true, 1), (true, false, 0xFFFFFFFF), (false, false, 0xFFFFFFFF), (true, true, -0x80000000),
      (false, true, 0x7FFFFFFF)].all (fun x =>
        seqNumber { wrapsSequence := x.1, signedSequence := x.2.1 } (seqPattern x.2.2) = x.2.2) = true := by decide

theorem witness_DuplicateFrameIsAckedNotRewritten :
    (∃ t, exec .encFrame helloOperands = .next t) ∧ helloOperands.len.toNat ≤ helloOperands.cfg.F - 20 ∧
    LegalDisc helloOperands ∧ at32.cfg = helloOperands.cfg ∧ { receiverOne with expected := 2 }.failed = false ∧
    [(true, false), (true, true), (false, false), (false, true)].all (fun x =>
      { receiverOne with expected := 2 }.expected =
        seqNext { wrapsSequence := x.1, signedSequence := x.2 }
          (seqNumber { wrapsSequence := x.1, signedSequence := x.2 } helloOperands.seq)) = true :=
  ⟨⟨_, rfl⟩, by decide, .inr rfl, by decide⟩

/-- The shortest and the longest datagram that is loaded. -/
theorem witness_CorruptDatagramIsNakked :
    (receiverOne.failed = false ∧ 20 ≤ (hello.take 20).length ∧ (hello.set 24 0x6D#8).length ≤ at32.cfg.F) ∧
    be64 (0#32 ++ crc32 ((hello.take 20).drop 8)) ≠ (hello.take 20).take 8 ∧
    be64 (0#32 ++ crc32 ((hello.set 24 0x6D#8).drop 8)) ≠ (hello.set 24 0x6D#8).take 8 := by decide +kernel

theorem witness_SenderResendsTheIdenticalFrame :
    { senderOne with phase := .awaitingAck, sentSeq := 1 }.phase = .awaitingAck ∧
    (ackZero.length ≤ at32.cfg.F ∧ (ackZero.take 15).length < 16) ∧
    be64 (0#32 ++ crc32 ((ackOne.set 15 0x03#8).drop 8)) ≠ (ackOne.set 15 0x03#8).take 8 ∧
    (nakOne.drop 8).take 8 ≠ be32 1#32 ++ be32 1#32 := by decide +kernel

/-- `DEC_FRAME` succeeding with `LEN = 5`, and failing with `LEN` left at 0 and at the largest the bus carries. -/
theorem witness_DecodeFrameReadsThePayloadSlice :
    [verified, at32, { at32 with len := 65516#32 }].all
      (fun s => answers (exec .decFrame s) fun t => 20 + t.len.toNat ≤ 65536) = true := by decide +kernel

/-- Both ends of the range. -/
theorem witness_SequenceReadingMattersOnlyAtTheEnds :
    (0 < receiverOne.expected ∧ receiverOne.expected < 0x7FFFFFFF) ∧
    (0 < { receiverOne with expected := 0x7FFFFFFE }.expected ∧ { receiverOne with expected := 0x7FFFFFFE }.expected < 0x7FFFFFFF) :=
  by decide

theorem witness_DuplicateBeforeTheNameUnit : ({} : Receiver).expected = 0 := rfl

end Sys2Proof.Tests
end

section
/-! Proofs about the invariants of 10_state.md R25: each shared operation keeps them, so every command, every event and
every step does. -/

namespace Sys2Proof.Machine

variable {s t : State}

/-! ### The shared operations -/

theorem errCode_le (e : ErrCode) : (errCode e).toNat ≤ 6 := by cases e <;> decide

theorem State.Inv.setErr (h : s.Inv) (e : ErrCode) : (Machine.setErr e s).Inv :=
  { h with err_le := errCode_le e }

theorem State.Inv.respond (h : s.Inv) (r : Response) : (Machine.respond r s).Inv := { h with }

/-- The invariants say nothing of the three operand registers the host and the decode commands write. -/
theorem State.Inv.withOperands (h : s.Inv) (q d l : Word) : State.Inv { s with seq := q, disc := d, len := l } :=
  { h with }

theorem State.Inv.withPending (h : s.Inv) (rest : List HostEvent) : State.Inv { s with pending := rest } := { h with }

/-- A write of `BUFLEN` clears `VALID`, so R25(e) asks nothing of the new length. -/
theorem State.Inv.withBuflen (h : s.Inv) {v : Word} (hv : v.toNat ≤ s.cfg.F) :
    State.Inv { s with buflen := v, valid := false } :=
  { h with buflen_le := hv, valid_len := nofun, valid_sum := nofun }

/-- A write of a `BUF` byte clears `VALID`, so R25(e) asks nothing of the new bytes. -/
theorem State.Inv.withBufByte (h : s.Inv) {a : Nat} (b : Byte) (ha : a < s.cfg.F) :
    State.Inv { s with buf := s.buf.write a b, valid := false } :=
  { h with
    valid_len := nofun
    valid_sum := nofun
    buf_wf := Memory.write_wf _ a b h.buf_wf
    buf_within := Memory.write_within _ a _ b h.buf_within ha }

theorem State.Inv.withPayByte (h : s.Inv) {a : Nat} (b : Byte) (ha : a < s.cfg.cap) :
    State.Inv { s with pay := s.pay.write a b } :=
  { h with
    pay_wf := Memory.write_wf _ a b h.pay_wf
    pay_within := Memory.write_within _ a _ b h.pay_within ha }

theorem resetOf_inv (c : Config) : (State.resetOf c).Inv where
  buflen_le := Nat.zero_le _
  err_le := Nat.zero_le _
  csum_hi := show BitVec.extractLsb' 32 32 (0#64) = 0#32 by decide
  valid_len := nofun
  valid_sum := nofun
  buf_wf := ⟨.nil, nofun⟩
  buf_within := nofun
  pay_wf := ⟨.nil, nofun⟩
  pay_within := nofun

theorem resetBlock_inv (s : State) : (resetBlock s).Inv := { resetOf_inv s.cfg with }

/-- A verify keeps the invariants if its minimum length is at least that of R25(e): the `VALID` it sets is the comparison
R25(e) speaks of, and the checksum it stores is widened. -/
theorem State.Inv.verify (h : s.Inv) {least : Nat} (hleast : 16 ≤ least) : (Machine.verify least s).Inv := by
  rcases verify_cases least s with ⟨-, e⟩ | ⟨hlen, e⟩ <;> rw [e]
  · exact { h with valid_len := nofun, valid_sum := nofun }
  · exact { h with
      csum_hi := widen_high _
      valid_len := fun _ => hleast.trans hlen
      valid_sum := fun hv => (of_decide_eq_true hv).symm }

/-! ### The buffer an encode command builds -/

/-- What the invariants say of a buffer of `n` bytes: it is canonical and inside its size (log 5). -/
def Memory.Fits (m : Memory) (n : Nat) : Prop := m.wf ∧ m.within n

theorem Memory.Fits.writeBytes {m : Memory} {n : Nat} (h : m.Fits n) (a : Nat) (bs : List Byte)
    (hn : a + bs.length ≤ n) : (m.writeBytes a bs).Fits n :=
  ⟨Memory.writeBytes_wf m a bs h.1, Memory.writeBytes_within m a n bs h.2 hn⟩

theorem putCommonFields_fits {m : Memory} (h : m.Fits s.cfg.F) : (putCommonFields s m).Fits s.cfg.F := by
  have hF := s.cfg.F_ge
  have h0 := h.writeBytes OFF_CHECKSUM (be64 0#64) (by simp; omega)
  have h8 := h0.writeBytes OFF_SEQUENCE (be32 s.seq) (by simp; omega)
  exact h8.writeBytes OFF_DISC (be32 s.disc) (by simp; omega)

@[simp] theorem payload_length (s : State) : (payload s).length = s.len.toNat := Memory.readBytes_length _ _ _

theorem putContent_fits {m : Memory} (h : m.Fits s.cfg.F) (hlen : s.len.toNat ≤ s.cfg.cap) :
    (putContent s m).Fits s.cfg.F := by
  have hcap := s.cfg.cap_add_header
  have h20 := h.writeBytes OFF_CONTENT (payload s) (by simp; omega)
  exact h20.writeBytes (OFF_CONTENT + s.len.toNat) _ (by simp; omega)

theorem State.Inv.sealBuffer (h : s.Inv) {n : Nat} {m : Memory} (hn : n ≤ s.cfg.F) (hm : m.Fits s.cfg.F) :
    (Machine.sealBuffer n m s).Inv := by
  have hF := s.cfg.F_ge
  obtain ⟨hwf, hwithin⟩ := hm.writeBytes OFF_CHECKSUM (be64 (checksum m n)) (by simp; omega)
  exact { h with
    buflen_le := (BitVec.toNat_ofNat n 32 ▸ Nat.mod_le _ _).trans hn
    csum_hi := widen_high _
    valid_len := nofun
    valid_sum := nofun
    buf_wf := hwf
    buf_within := hwithin }

/-! ### Commands, events and steps -/

theorem exec_inv (i : Instr) (h : s.Inv) (hx : exec i s = .next t) : t.Inv := by
  have hbuf : s.buf.Fits s.cfg.F := ⟨h.buf_wf, h.buf_within⟩
  have hF := s.cfg.F_ge
  cases i with
  | encFrame =>
    rcases execEncFrame_cases s with ⟨-, e⟩ | ⟨-, -, e⟩ | ⟨hlen, -, e⟩ <;> cases e.symm.trans hx
    · exact h.setErr _
    · exact h.setErr _
    · have hfields := (putCommonFields_fits hbuf).writeBytes OFF_LENGTH (be32 s.len) (by simp; omega)
      exact (h.sealBuffer le_rfl (putContent_fits hfields hlen)).setErr _
  | encReply =>
    rcases execEncReply_cases s with ⟨-, e⟩ | ⟨-, e⟩ <;> cases e.symm.trans hx
    · exact h.setErr _
    · exact (h.sealBuffer (by simp; omega) (putCommonFields_fits hbuf)).setErr _
  | verFrame => cases hx; exact (h.verify (by decide)).setErr _
  | verReply => cases hx; exact (h.verify (by decide)).setErr _
  | decFrame =>
    rcases execDecFrame_cases s with ⟨-, e⟩ | ⟨-, -, e⟩ | ⟨-, -, -, e⟩ | ⟨-, -, -, e⟩ <;> cases e.symm.trans hx
    · exact h.setErr _
    · exact h.setErr _
    · exact h.setErr _
    · exact (h.withOperands _ _ _).setErr _
  | decReply =>
    rcases execDecReply_cases s with ⟨-, e⟩ | ⟨-, -, e⟩ | ⟨-, -, e⟩ <;> cases e.symm.trans hx
    · exact h.setErr _
    · exact h.setErr _
    · exact (h.withOperands _ _ s.len).setErr _

theorem runCommand_inv (w : Word) (h : s.Inv) (hx : runCommand w s = .next t) : t.Inv := by
  rcases runCommand_cases w s with ⟨i, -, e⟩ | ⟨_, -, e⟩ <;> rw [e] at hx
  · exact exec_inv i h hx
  · exact raiseError_next.mp hx ▸ h.setErr _

theorem Handled.inv {e : HostEvent} (hh : Handled s e t) (h : s.Inv) : t.Inv := by
  cases hh with
  | reset => exact resetBlock_inv s
  | resetDuring => exact resetBlock_inv s
  | command _ w _ _ ht => exact runCommand_inv w (h.respond _) ht
  | seqWrite _ v => exact (h.withOperands v s.disc s.len).respond _
  | discWrite _ v => exact (h.withOperands s.seq v s.len).respond _
  | lenWrite _ v => exact (h.withOperands s.seq s.disc v).respond _
  | buflenWrite _ v _ hv => exact (h.withBuflen hv).respond _
  | bufWrite _ _ b _ ha => exact (h.withBufByte b ha).respond _
  | payWrite _ _ b _ ha => exact (h.withPayByte b ha).respond _
  | noTransaction | regRead | cmdRead | buflenTooLarge | readOnly | bufRead | bufReadOut | bufWriteOut | payRead
  | payReadOut | payWriteOut => exact h.respond _

theorem step_inv (h : s.Inv) (hx : step s = .next t) : t.Inv := by
  cases hp : s.pending with
  | nil => cases (step_idle hp).symm.trans hx; exact h
  | cons e rest => exact (step_cases hp hx).inv (h.withPending rest)

/-- The reserved bits of `STAT` read as 0 (10_state.md R18, R25(c)): the mask is cut where the fields of `STAT` are. -/
theorem statWord_reserved (s : State) : statWord s &&& 0xFFFF00FE#32 = 0#32 := by
  have hmask : (0xFFFF00FE#32 : Word) = 0xFFFF#16 ++ 0x00#8 ++ 0x7F#7 ++ 0#1 := by decide
  rw [statWord, hmask, BitVec.and_append, BitVec.and_append, BitVec.and_append]
  simp

/-- Settles O35: every operation a step can reach keeps the invariants. -/
theorem everyStepKeepsTheInvariants : Obligations.EveryStepKeepsTheInvariants :=
  fun _ t h hx => ⟨step_inv h hx, statWord_reserved t⟩

/-- Settles O36: after reset `VALID` is clear and both buffers list no cell. -/
theorem resetHasTheInvariants : Obligations.ResetHasTheInvariants := ⟨resetOf_inv, resetOf_inv _⟩

end Sys2Proof.Machine
end

section
/-! Proofs about who writes what (10_state.md R13 to R20, R24, R26): one inversion lemma says what a `CMD` write leaves, and
each statement is a case analysis over it and over `Handled`. -/

namespace Sys2Proof.Machine

open Sys2Proof.Claims

variable {s t : State}

/-! ### What each field is after an operation -/

theorem errCode_ne_zero {e : ErrCode} (he : e ≠ .none) : errCode e ≠ 0x00#8 := by
  cases e with
  | none => exact absurd rfl he
  | _ => decide

/-- A verify writes `CSUM` and `VALID` alone. -/
theorem verify_eq (least : Nat) (s : State) :
    verify least s = { s with
      csum := if least ≤ s.buflen.toNat then sumOf s.buf s.buflen.toNat else s.csum
      valid := decide (least ≤ s.buflen.toNat ∧ sumOf s.buf s.buflen.toNat = rdBe64 s.buf 0) } := by
  rcases verify_cases least s with ⟨hlen, e⟩ | ⟨hlen, e⟩ <;> rw [e]
  · simp [Nat.not_le.mpr hlen]
  · rw [if_pos hlen, decide_eq_decide.mpr (and_iff_right hlen)]
    rfl

/-- The checksum an encode command leaves in `CSUM` is that of the buffer it leaves, since the checksum field lies below
the bytes covered (41_encode.md R90, corner case d). -/
theorem sealBuffer_csum_eq (n : Nat) (m : Memory) (s : State) :
    (sealBuffer n m s).csum = sumOf (sealBuffer n m s).buf n :=
  (checksum_writeBytes_low m _ n le_rfl).symm

/-! ### What a `CMD` write leaves -/

/-- The checks of `ENC_FRAME` (41_encode.md R90) on the numbers of the state. -/
def EncFrameChecks (s : State) : Prop := s.len.toNat ≤ s.cfg.F - 20 ∧ (s.disc = 1#32 ∨ s.disc = 2#32)

/-- Everything a write of `CMD` can leave of the state `s`, by what its word decodes to. A failed command leaves its code in
`ERR` and nothing else (60_exceptions.md R123); the checks of the encode commands say which of the two it is. -/
inductive Commanded (s : State) : Except Reject Instr → State → Prop
  | illegal (x) : Commanded s (.error x) (setErr .illegalCmd s)
  | encFrame (m) (h : EncFrameChecks s) : Commanded s (.ok .encFrame) (setErr .none (sealBuffer s.cfg.F m s))
  | encFrameError (e) (h : ¬ EncFrameChecks s) (he : e ≠ .none) : Commanded s (.ok .encFrame) (setErr e s)
  | encReply (m) (h : LegalDisc s) : Commanded s (.ok .encReply) (setErr .none (sealBuffer 16 m s))
  | encReplyError (e) (h : ¬ LegalDisc s) (he : e ≠ .none) : Commanded s (.ok .encReply) (setErr e s)
  | verFrame : Commanded s (.ok .verFrame) (setErr .none (verify 20 s))
  | verReply : Commanded s (.ok .verReply) (setErr .none (verify 16 s))
  | decFrame : Commanded s (.ok .decFrame) (setErr .none { takeCommonFields s with len := fieldLength s })
  | decFrameError (e) (he : e ≠ .none) : Commanded s (.ok .decFrame) (setErr e s)
  | decReply : Commanded s (.ok .decReply) (setErr .none (takeCommonFields s))
  | decReplyError (e) (he : e ≠ .none) : Commanded s (.ok .decReply) (setErr e s)

theorem not_legalDisc (h : legalDisc s.disc = false) : ¬ LegalDisc s := fun hd => by
  rw [(legalDisc_iff s.disc).mpr hd] at h
  cases h

theorem exec_commanded {i : Instr} (hx : exec i s = .next t) : Commanded s (.ok i) t := by
  cases i with
  | encFrame =>
    rcases execEncFrame_cases s with ⟨hlen, e⟩ | ⟨-, hd, e⟩ | ⟨hlen, hd, e⟩ <;> cases e.symm.trans hx
    · exact .encFrameError _ (fun h => Nat.not_le.mpr hlen h.1) nofun
    · exact .encFrameError _ (fun h => not_legalDisc hd h.2) nofun
    · exact .encFrame _ ⟨hlen, (legalDisc_iff _).mp hd⟩
  | encReply =>
    rcases execEncReply_cases s with ⟨hd, e⟩ | ⟨hd, e⟩ <;> cases e.symm.trans hx
    · exact .encReplyError _ (not_legalDisc hd) nofun
    · exact .encReply _ ((legalDisc_iff _).mp hd)
  | verFrame => cases hx; exact .verFrame
  | verReply => cases hx; exact .verReply
  | decFrame =>
    rcases execDecFrame_cases s with ⟨-, e⟩ | ⟨-, -, e⟩ | ⟨-, -, -, e⟩ | ⟨-, -, -, e⟩ <;> cases e.symm.trans hx
    · exact .decFrameError _ nofun
    · exact .decFrameError _ nofun
    · exact .decFrameError _ nofun
    · exact .decFrame
  | decReply =>
    rcases execDecReply_cases s with ⟨-, e⟩ | ⟨-, -, e⟩ | ⟨-, -, e⟩ <;> cases e.symm.trans hx
    · exact .decReplyError _ nofun
    · exact .decReplyError _ nofun
    · exact .decReply

theorem runCommand_commanded {w : Word} (hx : runCommand w s = .next t) : Commanded s (decode w) t := by
  rcases runCommand_cases w s with ⟨i, hw, e⟩ | ⟨x, hw, e⟩ <;> rw [e] at hx <;> rw [hw]
  · exact exec_commanded hx
  · exact raiseError_next.mp hx ▸ .illegal x

/-! ### The statements -/

/-- Settles O18: a step keeps the invariants, which gives the first claim; the second is each event's own effect. -/
theorem onlyTheseEventsWriteValid : Obligations.OnlyTheseEventsWriteValid := by
  intro s t e rest hp hx
  refine ⟨fun h => (step_inv h hx).valid_sum, ?_⟩
  cases step_cases hp hx with
  | reset | resetDuring => rfl
  | command r w t hd ht =>
    simp only [hd]
    have hc := runCommand_commanded ht
    generalize decode w = d at hc ⊢
    cases hc with
    | encFrame _ h => exact (if_pos h).symm
    | encFrameError _ h => exact (if_neg h).symm
    | encReply _ h => exact (if_pos h).symm
    | encReplyError _ h => exact (if_neg h).symm
    | verFrame | verReply => rw [verify_eq]; rfl
    | illegal | decFrame | decFrameError | decReply | decReplyError => rfl
  | buflenWrite r v hd hv => simp [hd, hv]
  | buflenTooLarge r v hd hv => simp [hd, hv]
  | bufWrite r a b hd ha => simp [hd, ha]
  | bufWriteOut r a b hd ha => simp [hd, ha]
  | readOnly r reg v hd hreg => rcases hreg with rfl | rfl | rfl | rfl <;> simp [hd]
  | noTransaction | regRead | cmdRead | seqWrite | discWrite | lenWrite | bufRead | bufReadOut | payRead
  | payReadOut | payWrite | payWriteOut => simp [*]

/-- `STAT.ERR` is overwritten by every command, on every path. -/
theorem exec_withErr (i : Instr) (s : State) (x : Byte) : exec i { s with err := x } = exec i s := by
  cases i with
  | encFrame | encReply | decFrame | decReply => rfl
  | verFrame | verReply => simp only [exec, execVerFrame, execVerReply, verify_eq]; rfl

theorem runCommand_withErr (w : Word) (s : State) (x : Byte) :
    runCommand w { s with err := x } = runCommand w s := by
  unfold runCommand
  cases decode w with
  | ok i => exact exec_withErr i s x
  | error _ => rfl

theorem handle_cmdRequest (w : Word) (s : State) :
    handle (.req (cmdRequest w)) s = runCommand w (respond .ok s) := serve_cmdWrite w s

/-- Settles O19: of the events only a `CMD` write runs a command, and every command overwrites the code. -/
theorem onlyCmdWritesAndResetWriteErr : Obligations.OnlyCmdWritesAndResetWriteErr := by
  refine ⟨fun s t e rest hp hx hc => ?_, fun s w rest x hp => ?_⟩
  · cases step_cases hp hx with
    | command _ _ _ hd => simp [isCmdWrite, hd] at hc
    | _ => rfl
  · rw [step_pending hp, step_pending (s := { s with err := x }) hp, handle_cmdRequest, handle_cmdRequest]
    exact runCommand_withErr w (respond .ok { s with pending := rest }) x

/-- Settles O20: of the events only a `CMD` write and a reset reach `CSUM`. -/
theorem onlyTheseEventsWriteCsum : Obligations.OnlyTheseEventsWriteCsum := by
  intro s t e rest hp hx
  cases step_cases hp hx with
  | reset | resetDuring => rfl
  | command r w t hd ht =>
    simp only [hd]
    have hc := runCommand_commanded ht
    generalize decode w = d at hc ⊢
    cases hc with
    | encFrame _ h => rw [setErr_csum, sealBuffer_csum_eq]; exact (if_pos h).symm
    | encFrameError _ h => exact (if_neg h).symm
    | encReply _ h => rw [setErr_csum, sealBuffer_csum_eq]; exact (if_pos h).symm
    | encReplyError _ h => exact (if_neg h).symm
    | verFrame | verReply => rw [verify_eq]; rfl
    | illegal | decFrame | decFrameError | decReply | decReplyError => rfl
  | readOnly r reg v hd hreg => rcases hreg with rfl | rfl | rfl | rfl <;> simp [hd]
  | noTransaction | regRead | cmdRead | seqWrite | discWrite | lenWrite | buflenWrite | buflenTooLarge | bufRead
  | bufReadOut | bufWrite | bufWriteOut | payRead | payReadOut | payWrite | payWriteOut => simp [*]

/-- Settles O21: of the events only a register write, a `CMD` write that succeeds and a reset reach the four registers. -/
theorem onlyTheseEventsWriteTheOperandRegisters : Obligations.OnlyTheseEventsWriteTheOperandRegisters := by
  intro s t e rest hp hx
  cases step_cases hp hx with
  | reset | resetDuring => rfl
  | command r w t hd ht =>
    simp only [hd]
    have hc := runCommand_commanded ht
    generalize decode w = d at hc ⊢
    cases hc with
    | illegal => rfl
    | encFrameError _ _ he | encReplyError _ _ he | decFrameError _ he | decReplyError _ he =>
      exact (if_pos (errCode_ne_zero he)).symm
    | encFrame | encReply | decFrame | decReply => rfl
    | verFrame | verReply => rw [verify_eq]; rfl
  | buflenWrite r v hd hv => simp [hd, hv]
  | buflenTooLarge r v hd hv => simp [hd, hv]
  | readOnly r reg v hd hreg => rcases hreg with rfl | rfl | rfl | rfl <;> simp [hd]
  | noTransaction | regRead | cmdRead | seqWrite | discWrite | lenWrite | bufRead | bufReadOut | bufWrite | bufWriteOut
  | payRead | payReadOut | payWrite | payWriteOut => simp [*]

/-- Settles O22: no command touches `PAY`, and an accepted write of one of its bytes leaves the others. -/
theorem onlyPayWritesAndResetWritePay : Obligations.OnlyPayWritesAndResetWritePay := by
  intro s t e rest hp hx a
  cases step_cases hp hx with
  | reset | resetDuring => rfl
  | command r w t hd ht =>
    obtain ⟨u, hu, hframe⟩ := runCommand_frame w (respond .ok { s with pending := rest })
    cases hu.symm.trans ht
    simp [hd, hframe.pay]
  | payWrite r x b hd hin =>
    have : x.toNat < s.cfg.F - 20 := hin
    simp [hd, Memory.read_write, this]
  | payWriteOut r x b hd hout =>
    have : ¬ x.toNat < s.cfg.F - 20 := Nat.not_lt.mpr hout
    simp [hd, this]
  | noTransaction | regRead | cmdRead | seqWrite | discWrite | lenWrite | buflenWrite | buflenTooLarge | readOnly
  | bufRead | bufReadOut | bufWrite | bufWriteOut | payRead | payReadOut => simp [*]

end Sys2Proof.Machine
end

section
/-! Proofs about the reset state (10_state.md R27), the step on a `CMD` write (R21; 20_memory.md R49) and the register
transactions (10_state.md R30; 20_memory.md R48). -/

namespace Sys2Proof.Machine

open Sys2Proof.Claims

variable {s : State}

/-- Settles O1: the reset state lists no cell, so every byte of both buffers reads as `0x00`. -/
theorem resetLeavesTheSpecValues : Obligations.ResetLeavesTheSpecValues :=
  fun _ => ⟨rfl, rfl, rfl, rfl, rfl, rfl, rfl, fun a _ => Memory.read_nil a, fun a _ => Memory.read_nil a⟩

/-! ### A `CMD` write -/

theorem runCommand_of_decode {w : Word} {i : Instr} (h : decode w = .ok i) (s : State) : runCommand w s = exec i s := by
  rw [runCommand, h]

/-- A step on a pending `CMD` write whose word is a command runs that command. -/
theorem step_cmdRequest {w : Word} {rest : List HostEvent} {i : Instr}
    (hp : s.pending = .req (cmdRequest w) :: rest) (hw : decode w = .ok i) :
    step s = exec i (respond .ok { s with pending := rest }) := by
  rw [step_pending hp, handle_cmdRequest, runCommand_of_decode hw]

/-- A row of the opcode table is read by the decoder of its 32-bit word. -/
theorem decode_of_decodeTableWord {nbits w : Nat} {i : Instr} (h : decodeTableWord nbits w = some i) :
    decode (tableWord nbits w) = .ok i := by
  unfold decodeTableWord at h
  split at h
  · split at h
    · rename_i j hj
      cases h
      exact hj
    · cases h
  · cases h

/-- Settles O6: both clauses are a step on a pending `CMD` write. -/
theorem stepRunsTheDecodedCommand : Obligations.StepRunsTheDecodedCommand :=
  ⟨fun _ _ _ _ hp hw => step_cmdRequest hp hw,
    fun s nbits w _ h => step_cmdRequest (s := s.withFetchWord nbits w) rfl (decode_of_decodeTableWord h)⟩

/-! ### Register transactions -/

/-- A 32-bit read at a register's address answers the register and changes nothing. -/
theorem step_wordRead (r : Reg) {v d : Word} {rest : List HostEvent} (hv : regRead r s = .ok v)
    (hp : s.pending = .req (wordRead (0#2 ++ regAddr r) d) :: rest) :
    step s = .next { s with pending := rest, responses := s.responses ++ [.data v] } := by
  have hr : regRead r { s with pending := rest } = .ok v := by rw [← hv]; cases r <;> rfl
  simp [step_pending hp, handle, serve, wordRead, decodeBus_register, perform, hr, answerRead, respond]

/-- A 32-bit write at a register's address is that register's write. -/
theorem step_wordWrite (r : Reg) {v : Word} {rest : List HostEvent}
    (hp : s.pending = .req (wordWrite (0#2 ++ regAddr r) v) :: rest) :
    step s = regWrite r v { s with pending := rest } := by
  simp [step_pending hp, handle, serve, wordWrite, decodeBus_register, perform]

/-- Concatenation in numbers. -/
theorem toNat_append_eq_add {m n : Nat} (x : BitVec m) (y : BitVec n) :
    (x ++ y).toNat = x.toNat * 2 ^ n + y.toNat := by
  rw [BitVec.toNat_append, ← Nat.shiftLeft_add_eq_or_of_lt y.isLt, Nat.shiftLeft_eq]

/-- The value of `STAT` as a number: `ERR` from bit 8 on, `VALID` in bit 0 (10_state.md R18). -/
theorem statWord_toNat (s : State) : (statWord s).toNat = s.err.toNat * 256 + s.valid.toNat := by
  simp only [statWord, toNat_append_eq_add, BitVec.toNat_ofBool, BitVec.toNat_ofNat]
  omega

/-- Settles O27: each clause is a read of the register at its address. -/
theorem registerReadsAnswerTheRegisters : Obligations.RegisterReadsAnswerTheRegisters := by
  rintro s a d v rest hp
    (⟨rfl, hv⟩ | ⟨rfl, rfl⟩ | ⟨rfl, rfl⟩ | ⟨rfl, rfl⟩ | ⟨rfl, rfl⟩ | ⟨rfl, rfl⟩ | ⟨rfl, rfl⟩ | ⟨rfl, hv⟩)
  · have hstat : v = statWord s := BitVec.eq_of_toNat_eq (hv.trans (statWord_toNat s).symm)
    exact step_wordRead .stat (by rw [hstat]; rfl) hp
  · exact step_wordRead .seq rfl hp
  · exact step_wordRead .disc rfl hp
  · exact step_wordRead .len rfl hp
  · exact step_wordRead .buflen rfl hp
  · exact step_wordRead .csumHi rfl hp
  · exact step_wordRead .csumLo rfl hp
  · have hF : v = BitVec.ofNat 32 s.cfg.F := BitVec.eq_of_toNat_eq (hv.trans s.cfg.ofNat_F_toNat.symm)
    exact step_wordRead .fsize (by rw [hF]; rfl) hp

/-- Settles O28: each clause is a write of the register at its address, that of `BUFLEN` in its accepted range. -/
theorem registerWritesChangeTheRegister : Obligations.RegisterWritesChangeTheRegister := by
  refine fun s v rest => ⟨fun hp => ?_, fun hp => ?_, fun hp => ?_, fun hp hv => ?_⟩
  · exact step_wordWrite .seq hp
  · exact step_wordWrite .disc hp
  · exact step_wordWrite .len hp
  · rw [step_wordWrite .buflen hp, regWrite, writeBuflen, if_neg (Nat.not_lt.mpr hv)]
    rfl

end Sys2Proof.Machine
end

section
/-! Proofs about the flat bus map (20_memory.md R41, R43, R47; 10_state.md R30): which offsets are registers, what a bus
address is as a number, and that decoding and the bus form are each other's converse. -/

namespace Sys2Proof

open Sys2Proof.Claims

variable {r : BusReq} {tr : Transaction}

/-! ### Register addresses -/

/-- The register map is one to one (10_state.md R30). -/
theorem regAt_eq_some {o : Offset} {reg : Reg} (h : regAt o = some reg) : o = regAddr reg := by
  unfold regAt at h
  split at h <;> cases h <;> exact BitVec.eq_of_toNat_eq (by assumption)

/-- Every aligned offset below `0x24` is a register's (10_state.md R30). -/
theorem regAt_eq_none {o : Offset} (h : regAt o = none) (haligned : o.toNat % 4 = 0) : 0x24 ≤ o.toNat := by
  unfold regAt at h
  split at h
  case h_10 => simp only [imp_false] at *; omega
  all_goals cases h

/-! ### Bus addresses -/

theorem busAddr_of_busWindow {a : BusAddr} {x : BitVec 2} (h : busWindow a = x) : a = x ++ busOffset a := by
  rw [← h]; exact busAddr_eq a

/-- An address as a number, from its window and its offset (20_memory.md R41). -/
@[simp] theorem busAddr_toNat (x : BitVec 2) (o : Offset) :
    (x ++ o : BusAddr).toNat = x.toNat * 0x10000 + o.toNat :=
  Machine.toNat_append_eq_add x o

/-- A number below `0x10000` past the start of a window is an offset of that window (20_memory.md R41). -/
theorem busAddr_ofNat (x : BitVec 2) {base n : Nat} (hbase : base = x.toNat * 0x10000) (hn : n < 0x10000) :
    BitVec.ofNat 18 (base + n) = x ++ BitVec.ofNat 16 n := by
  have := x.isLt
  refine BitVec.eq_of_toNat_eq ?_
  rw [busAddr_toNat, BitVec.toNat_ofNat, BitVec.toNat_ofNat]
  omega

/-! ### Decoding the bus form -/

/-- An 8-bit request to the `BUF` window is an access to that byte. -/
theorem decodeBus_buf (w : Bool) (a : Offset) (d : Word) :
    decodeBus ⟨w, .byte, 1#2 ++ a, d⟩ = .ok (if w then .bufWrite a (wdataByte d) else .bufRead a) := by
  simp [decodeBus, decodeBuf]

/-- An 8-bit request to the `PAY` window is an access to that byte. -/
theorem decodeBus_pay (w : Bool) (a : Offset) (d : Word) :
    decodeBus ⟨w, .byte, 2#2 ++ a, d⟩ = .ok (if w then .payWrite a (wdataByte d) else .payRead a) := by
  simp [decodeBus, decodePay]

theorem decodeBus_encodeBus (t : Transaction) : decodeBus (encodeBus t) = .ok t := by
  cases t with
  | regRead reg => exact decodeBus_register false reg 0#32
  | regWrite reg v => exact decodeBus_register true reg v
  | bufRead a => exact decodeBus_buf false a 0#32
  | payRead a => exact decodeBus_pay false a 0#32
  | bufWrite a b => simp [encodeBus, decodeBus_buf, Machine.wdataByte_setWidth]
  | payWrite a b => simp [encodeBus, decodeBus_pay, Machine.wdataByte_setWidth]

theorem canonical_of_decodeReg (hx : busWindow r.addr = 0#2) (h : decodeReg r = .ok tr) : canonical r = encodeBus tr := by
  obtain ⟨write, size, a, d⟩ := r
  cases size with
  | byte => cases h
  | word =>
    simp only [decodeReg] at h
    split at h
    · cases h
    · split at h
      · cases h
      · next reg hreg =>
        cases h
        have ha : a = 0#2 ++ regAddr reg := by rw [← regAt_eq_some hreg]; exact busAddr_of_busWindow hx
        cases write <;> simp [canonical, encodeBus, ha]

/-- A request that decodes is the bus form of what it decodes to, but for the bits the bus ignores. -/
theorem canonical_of_decodeBus (h : decodeBus r = .ok tr) : canonical r = encodeBus tr := by
  unfold decodeBus at h
  split at h
  · next hx => exact canonical_of_decodeReg hx h
  obtain ⟨write, size, a, d⟩ := r
  split at h
  · next hx =>
    have ha := busAddr_of_busWindow hx
    cases size <;> cases h
    cases write <;> simp [canonical, encodeBus, wdataByte, ← ha]
  split at h
  · next hx =>
    have ha := busAddr_of_busWindow hx
    cases size <;> cases h
    cases write <;> simp [canonical, encodeBus, wdataByte, ← ha]
  · cases h

/-- Settles O5: a bus form decodes to its transaction; back, window by window, the offset and the written data are those of
the transaction. -/
theorem busMapDecodesExactlyItsTransactions : Obligations.BusMapDecodesExactlyItsTransactions :=
  ⟨decodeBus_encodeBus, fun _ _ => canonical_of_decodeBus⟩

end Sys2Proof
end

section
/-! Proofs about the answers of the bus (20_memory.md R42, R45, R48 to R50): which requests are refused, what a read and a
buffer write change, and that each request gets one response. -/

namespace Sys2Proof.Machine

open Sys2Proof.Claims

variable {s t : State} {r : BusReq} {tr : Transaction} {rest : List HostEvent}

/-! ### The refused requests -/

/-- Cases B3 to B6 of 20_memory.md R45, on the transaction a request is. -/
def Denied (c : Config) : Transaction → Prop
  | .regRead reg => reg = .cmd
  | .regWrite reg v =>
    (reg = .stat ∨ reg = .csumHi ∨ reg = .csumLo ∨ reg = .fsize) ∨ (reg = .buflen ∧ c.F < v.toNat)
  | .bufRead a | .bufWrite a _ => c.F ≤ a.toNat
  | .payRead a | .payWrite a _ => c.F - 20 ≤ a.toNat

/-- Of the bus forms, which are never in the cases B1 and B2, those of a denied transaction are refused. -/
theorem refused_encodeBus : Refused s (encodeBus tr) ↔ Denied s.cfg tr := by
  cases tr with
  | regRead reg => cases reg <;> simp [Refused, encodeBus, regAddr, Denied] <;> omega
  | regWrite reg v => cases reg <;> simp [Refused, encodeBus, regAddr, Denied] <;> omega
  | bufRead a | bufWrite a | payRead a | payWrite a =>
    have := a.isLt
    simp [Refused, encodeBus, Denied]
    omega

/-- The bits the bus ignores do not decide whether a request is refused (20_memory.md R47). -/
theorem refused_canonical : Refused s (canonical r) ↔ Refused s r := by
  obtain ⟨write, size, a, d⟩ := r
  cases write with
  | false => simp [Refused, canonical]
  | true =>
    cases size with
    | word => simp [Refused, canonical]
    | byte =>
      simp [Refused, canonical]
      omega

theorem refused_iff_denied (h : decodeBus r = .ok tr) : Refused s r ↔ Denied s.cfg tr := by
  rw [← refused_canonical, canonical_of_decodeBus h, refused_encodeBus]

/-- A request that is no transaction is in the case B1 or B2. -/
theorem refused_of_decodeBus_error {x : BusRefusal} (h : decodeBus r = .error x) : Refused s r := by
  obtain ⟨write, size, a, d⟩ := r
  have hoffset := busOffset_toNat a
  simp only [decodeBus, ← BitVec.toNat_inj, busWindow_toNat, BitVec.toNat_ofNat] at h
  split at h
  · cases size with
    | byte => simp [Refused]; omega
    | word =>
      simp only [decodeReg] at h
      split at h
      · simp [Refused]; omega
      · split at h
        · next hreg =>
          have := regAt_eq_none hreg (by omega)
          simp [Refused]; omega
        · cases h
  · cases size with
    | word => simp [Refused]; omega
    | byte =>
      split at h
      · cases h
      · split at h
        · cases h
        · simp [Refused]; omega

/-- An event that is a request is refused, with no effect, in the cases B1 to B6 and in no other (20_memory.md R45). -/
theorem Handled.refused_or_answered (hh : Handled s (.req r) t) :
    (Refused s r ∧ t = respond .busError s) ∨
    (¬ Refused s r ∧ ∃ x, x ≠ .busError ∧ t.responses = s.responses ++ [x]) := by
  cases hh with
  | noTransaction _ _ h => exact .inl ⟨refused_of_decodeBus_error h, rfl⟩
  | cmdRead _ h => exact .inl ⟨(refused_iff_denied h).mpr rfl, rfl⟩
  | readOnly _ _ _ h hreg => exact .inl ⟨(refused_iff_denied h).mpr (.inl hreg), rfl⟩
  | buflenTooLarge _ _ h hv => exact .inl ⟨(refused_iff_denied h).mpr (.inr ⟨rfl, hv⟩), rfl⟩
  | bufReadOut _ _ h ha | bufWriteOut _ _ _ h ha | payReadOut _ _ h ha | payWriteOut _ _ _ h ha =>
    exact .inl ⟨(refused_iff_denied h).mpr ha, rfl⟩
  | command _ w _ h ht =>
    obtain ⟨u, hu, hframe⟩ := runCommand_frame w (respond .ok s)
    cases hu.symm.trans ht
    exact .inr ⟨mt (refused_iff_denied h).mp (by simp [Denied]), .ok, nofun, hframe.responses⟩
  | regRead _ _ _ h hv =>
    exact .inr ⟨mt (refused_iff_denied h).mp (by rintro rfl; cases hv), .data _, nofun, rfl⟩
  | seqWrite _ _ h | discWrite _ _ h | lenWrite _ _ h =>
    exact .inr ⟨mt (refused_iff_denied h).mp (by simp [Denied]), .ok, nofun, rfl⟩
  | buflenWrite _ _ h hv =>
    exact .inr ⟨mt (refused_iff_denied h).mp (by simpa [Denied] using hv), .ok, nofun, rfl⟩
  | bufRead _ _ h ha | payRead _ _ h ha =>
    exact .inr ⟨mt (refused_iff_denied h).mp (Nat.not_le.mpr ha), .data _, nofun, rfl⟩
  | bufWrite _ _ _ h ha | payWrite _ _ _ h ha =>
    exact .inr ⟨mt (refused_iff_denied h).mp (Nat.not_le.mpr ha), .ok, nofun, rfl⟩

/-- The word of a command is one of the numbers 1 to 6 (30_encoding.md R70). -/
theorem decode_toNat_bounds {w : Word} {i : Instr} (h : decode w = .ok i) : 1 ≤ w.toNat ∧ w.toNat ≤ 6 := by
  unfold decode at h
  split at h
  · next hzero =>
    have hz := congrArg BitVec.toNat hzero
    have hop : (cmdOp w).toNat = w.toNat % 256 := by simp [cmdOp, BitVec.extractLsb'_toNat]
    simp only [cmdZero, BitVec.extractLsb'_toNat, Nat.shiftRight_eq_div_pow, BitVec.toNat_ofNat] at hz
    have := w.isLt
    unfold instrOfOp at h
    split at h
    case h_7 => cases h
    all_goals omega
  · cases h

/-- Settles O25: the transaction a request is decides the cases B3 to B6, the request alone B1 and B2; a `CMD` write runs its
word, and a word that is no command raises `E_ILLEGAL_CMD`. -/
theorem refusedExactlyInTheSixCases : Obligations.RefusedExactlyInTheSixCases := by
  intro s r rest hp
  obtain ⟨t, ht, hh⟩ := handle_next (e := .req r) nofun { s with pending := rest }
  have hstep : step s = .next t := (step_pending hp).trans ht
  refine ⟨fun h => ?_, fun h => ?_, ?_⟩
  · rcases hh.refused_or_answered with ⟨-, rfl⟩ | ⟨hn, -⟩
    · exact hstep
    · exact absurd h hn
  · rcases hh.refused_or_answered with ⟨hr, -⟩ | ⟨-, x, hx, hresp⟩
    · exact absurd hr h
    · exact ⟨t, x, hstep, hresp, hx⟩
  · rintro w rfl
    rw [handle_cmdRequest] at ht
    obtain ⟨u, hu, hframe⟩ := runCommand_frame w (respond .ok { s with pending := rest })
    cases hu.symm.trans ht
    refine ⟨t, hstep, hframe.responses, fun hw => ?_⟩
    rcases runCommand_cases w (respond .ok { s with pending := rest }) with ⟨i, hi, -⟩ | ⟨_, -, e⟩
    · have := decode_toNat_bounds hi
      omega
    · rw [raiseError_next.mp (e.symm.trans ht)]
      rfl

/-! ### One response per request -/

/-- What every request does to the host's side and the parameter. -/
theorem Handled.request_frame (hh : Handled s (.req r) t) :
    ∃ x, t.pending = s.pending ∧ t.responses = s.responses ++ [x] ∧ t.cfg = s.cfg := by
  cases hh with
  | command _ w _ _ ht =>
    obtain ⟨u, hu, hframe⟩ := runCommand_frame w (respond .ok s)
    cases hu.symm.trans ht
    exact ⟨.ok, hframe.pending, hframe.responses, hframe.cfg⟩
  | _ => exact ⟨_, rfl, rfl, rfl⟩

/-- Settles O32: in every case of `Handled` a request takes itself out of the pending events and adds one response. -/
theorem oneResponsePerRequestInOrder : Obligations.OneResponsePerRequestInOrder := by
  intro s r rest hp
  obtain ⟨t, ht, hh⟩ := handle_next (e := .req r) nofun { s with pending := rest }
  obtain ⟨x, hframe⟩ := hh.request_frame
  exact ⟨t, x, (step_pending hp).trans ht, hframe⟩

/-! ### Reads and buffer writes -/

/-- A transaction whose bus form is a read adds its answer and changes nothing else (20_memory.md R48). -/
theorem perform_read (h : (encodeBus tr).write = false) (s : State) : ∃ x, perform tr s = .next (respond x s) := by
  have answered : ∀ x, ∃ y, answerRead x s = .next (respond y s)
    | .ok v => ⟨.data v, rfl⟩
    | .error _ => ⟨.busError, rfl⟩
  cases tr with
  | regRead | bufRead | payRead => exact answered _
  | regWrite | bufWrite | payWrite => cases h

/-- Settles O31: a read is answered from the state as it is, whatever the request decodes to. -/
theorem readsChangeNothing : Obligations.ReadsChangeNothing := by
  intro s r rest hp hr
  rw [step_pending hp]
  rcases serve_cases r { s with pending := rest } with ⟨tr, hd, e⟩ | ⟨_, -, e⟩
  · have hread : (encodeBus tr).write = false := by rw [← canonical_of_decodeBus hd]; exact hr
    obtain ⟨x, hx⟩ := perform_read hread { s with pending := rest }
    exact ⟨x, e.trans hx⟩
  · exact ⟨.busError, e⟩

theorem step_eq_perform (hp : s.pending = .req r :: rest) (hd : decodeBus r = .ok tr) :
    step s = perform tr { s with pending := rest } := by
  rw [step_pending hp, handle, serve, hd]

/-- An 8-bit request at `0x10000 + n` is an access to `BUF[n]` (20_memory.md R41). -/
theorem step_bufByte {w : Bool} {n : Nat} {d : Word} (hn : n < 0x10000)
    (hp : s.pending = .req ⟨w, .byte, BitVec.ofNat 18 (0x10000 + n), d⟩ :: rest) :
    step s = perform (if w then .bufWrite (BitVec.ofNat 16 n) (wdataByte d) else .bufRead (BitVec.ofNat 16 n))
      { s with pending := rest } :=
  step_eq_perform hp (by rw [busAddr_ofNat 1#2 (by decide) hn, decodeBus_buf])

/-- An 8-bit request at `0x20000 + n` is an access to `PAY[n]` (20_memory.md R41). -/
theorem step_payByte {w : Bool} {n : Nat} {d : Word} (hn : n < 0x10000)
    (hp : s.pending = .req ⟨w, .byte, BitVec.ofNat 18 (0x20000 + n), d⟩ :: rest) :
    step s = perform (if w then .payWrite (BitVec.ofNat 16 n) (wdataByte d) else .payRead (BitVec.ofNat 16 n))
      { s with pending := rest } :=
  step_eq_perform hp (by rw [busAddr_ofNat 2#2 (by decide) hn, decodeBus_pay])

theorem offset_toNat {n : Nat} (hn : n < 0x10000) : (BitVec.ofNat 16 n).toNat = n := Nat.mod_eq_of_lt hn

/-- Settles O29: both windows hold their buffer from offset 0 on. -/
theorem bufferReadsAnswerTheByte : Obligations.BufferReadsAnswerTheByte := by
  intro s n d rest
  have hF := s.cfg.F_le
  refine ⟨fun hn hp => ?_, fun hn hp => ?_⟩
  · have hn' : n < 0x10000 := by omega
    rw [step_bufByte hn' hp]
    simp [perform, bufRead, offset_toNat hn', hn, answerRead, respond]
  · have hn' : n < 0x10000 := by omega
    rw [step_payByte hn' hp]
    simp [perform, payRead, Config.cap_eq, offset_toNat hn', hn, answerRead, respond]

/-- Settles O30: the new buffer is the old one with one byte written, and `Memory.read_write` says what it reads. -/
theorem bufferWritesStoreTheByte : Obligations.BufferWritesStoreTheByte := by
  intro s n d rest
  have hF := s.cfg.F_le
  refine ⟨fun hn hp => ⟨s.buf.write n (wdataByte d), ?_, ?_, fun a ha => ?_⟩,
    fun hn hp => ⟨s.pay.write n (wdataByte d), ?_, ?_, fun a ha => ?_⟩⟩
  · have hn' : n < 0x10000 := by omega
    rw [step_bufByte hn' hp]
    simp [perform, bufWrite, offset_toNat hn', hn, answerWrite, respond, setValid]
  · exact (Memory.read_write _ n n _).trans (if_pos rfl)
  · exact (Memory.read_write _ n a _).trans (if_neg ha)
  · have hn' : n < 0x10000 := by omega
    rw [step_payByte hn' hp]
    simp [perform, payWrite, Config.cap_eq, offset_toNat hn', hn, answerWrite, respond]
  · exact (Memory.read_write _ n n _).trans (if_pos rfl)
  · exact (Memory.read_write _ n a _).trans (if_neg ha)

end Sys2Proof.Machine
end

section
/-! Proof that repeating a `CMD` write leaves the same state (20_memory.md R48; 41_encode.md R90, corner case h). A failed
command left `ERR` alone; a verify and a decode recompute what they wrote; an encode overwrites every byte it reads back. -/

namespace Sys2Proof.Machine

variable {s t : State}

/-! ### Buffers that agree outside a range -/

/-- The bytes of the two buffers below `lo` and from `hi` on are the same. -/
def Memory.AgreeOutside (lo hi : Nat) (m m' : Memory) : Prop := ∀ x, x < lo ∨ hi ≤ x → m.read x = m'.read x

/-- The same bytes written to both at the start of the range leave a shorter range. -/
theorem Memory.AgreeOutside.writeBoth {lo hi : Nat} {m m' : Memory} (h : m.AgreeOutside lo hi m') (bs : List Byte) :
    (m.writeBytes lo bs).AgreeOutside (lo + bs.length) hi (m'.writeBytes lo bs) := by
  intro x hx
  rw [Memory.read_writeBytes, Memory.read_writeBytes]
  split
  · rfl
  · exact h x (by omega)

/-- A write inside the range leaves what lies outside. -/
theorem Memory.AgreeOutside.writeInside {lo hi a : Nat} {m m' : Memory} (h : m'.AgreeOutside lo hi m) (bs : List Byte)
    (hlo : lo ≤ a) (hhi : a + bs.length ≤ hi) : (m'.writeBytes a bs).AgreeOutside lo hi m := fun x hx => by
  rw [Memory.read_writeBytes_outside _ _ _ _ (by omega), h x hx]

/-- Canonical buffers that agree outside an empty range are the same. -/
theorem Memory.AgreeOutside.eq {n : Nat} {m m' : Memory} (h : m.AgreeOutside n n m') (hm : m.wf) (hm' : m'.wf) : m = m' :=
  Memory.ext_of_wf m m' hm hm' fun x => h x (by omega)

theorem Memory.Fits.agreeOutside {n : Nat} {m m' : Memory} (h : m.Fits n) (h' : m'.Fits n) : m.AgreeOutside 0 n m' :=
  fun x hx => by
    rw [Memory.read_unlisted m x fun c hc => by have := h.2 c hc; omega,
      Memory.read_unlisted m' x fun c hc => by have := h'.2 c hc; omega]

/-! ### The bytes an encode command builds -/

theorem putCommonFields_agreeOutside {hi : Nat} {m m' : Memory} (h : m.AgreeOutside 0 hi m') :
    (putCommonFields s m).AgreeOutside 16 hi (putCommonFields s m') :=
  ((h.writeBoth (be64 0#64)).writeBoth (be32 s.seq)).writeBoth (be32 s.disc)

/-- What `ENC_FRAME` makes of the buffer `m` before the checksum enters (41_encode.md R90). -/
def frameOver (s : State) (m : Memory) : Memory :=
  putContent s ((putCommonFields s m).writeBytes OFF_LENGTH (be32 s.len))

theorem frameOver_fits {m : Memory} (h : m.Fits s.cfg.F) (hlen : s.len.toNat ≤ s.cfg.cap) :
    (frameOver s m).Fits s.cfg.F := by
  have hF := s.cfg.F_ge
  exact putContent_fits ((putCommonFields_fits h).writeBytes OFF_LENGTH (be32 s.len) (by simp; omega)) hlen

/-- `ENC_FRAME` builds the same `F` bytes whatever the buffer held. -/
theorem frameOver_eq {m m' : Memory} (hm : m.Fits s.cfg.F) (hm' : m'.Fits s.cfg.F) (hlen : s.len.toNat ≤ s.cfg.cap) :
    frameOver s m = frameOver s m' := by
  have hcap := s.cfg.cap_add_header
  have hfields := (putCommonFields_agreeOutside (s := s) (hm.agreeOutside hm')).writeBoth (be32 s.len)
  have hpay := hfields.writeBoth (payload s)
  rw [payload_length] at hpay
  have hall := hpay.writeBoth (List.replicate (s.cfg.cap - s.len.toNat) 0x00#8)
  rw [List.length_replicate, be32_length,
    show 16 + 4 + s.len.toNat + (s.cfg.cap - s.len.toNat) = s.cfg.F by omega] at hall
  exact hall.eq (frameOver_fits hm hlen).1 (frameOver_fits hm' hlen).1

/-- `ENC_REPLY` writes the first 16 bytes alone. -/
theorem sealedReply_agreeOutside (s : State) :
    (sealBuffer RSZ (putCommonFields s s.buf) s).buf.AgreeOutside 0 16 s.buf := by
  have hself : s.buf.AgreeOutside 0 16 s.buf := fun _ _ => rfl
  have h0 := hself.writeInside (a := 0) (be64 0#64) (by simp) (by simp)
  have h8 := h0.writeInside (a := 8) (be32 s.seq) (by simp) (by simp)
  have h12 := h8.writeInside (a := 12) (be32 s.disc) (by simp) (by simp)
  exact h12.writeInside _ (by simp) (by simp)

/-- The state a successful `ENC_FRAME` leaves. -/
def frameEncoded (s : State) : State := setErr .none (sealBuffer s.cfg.F (frameOver s s.buf) s)

/-- The state a successful `ENC_REPLY` leaves. -/
def replyEncoded (s : State) : State := setErr .none (sealBuffer RSZ (putCommonFields s s.buf) s)

theorem execEncFrame_success (hlen : s.len.toNat ≤ s.cfg.cap) (hd : legalDisc s.disc = true) :
    execEncFrame s = .next (frameEncoded s) :=
  (if_neg (Nat.not_lt.mpr hlen)).trans (if_neg (by simp [hd]))

theorem execEncReply_success (hd : legalDisc s.disc = true) : execEncReply s = .next (replyEncoded s) :=
  if_neg (by simp [hd])

theorem frameEncoded_again (h : s.Inv) (h' : (frameEncoded s).Inv) (hlen : s.len.toNat ≤ s.cfg.cap) :
    frameEncoded (frameEncoded s) = frameEncoded s := by
  have hsame : frameOver s (frameEncoded s).buf = frameOver s s.buf :=
    frameOver_eq ⟨h'.buf_wf, h'.buf_within⟩ ⟨h.buf_wf, h.buf_within⟩ hlen
  calc frameEncoded (frameEncoded s)
    _ = setErr .none (sealBuffer s.cfg.F (frameOver s (frameEncoded s).buf) s) := rfl
    _ = frameEncoded s := by rw [hsame, frameEncoded]

theorem replyEncoded_again (h : s.Inv) (h' : (replyEncoded s).Inv) :
    replyEncoded (replyEncoded s) = replyEncoded s := by
  have hsame : putCommonFields s (replyEncoded s).buf = putCommonFields s s.buf :=
    (putCommonFields_agreeOutside (sealedReply_agreeOutside s)).eq (putCommonFields_fits ⟨h'.buf_wf, h'.buf_within⟩).1
      (putCommonFields_fits ⟨h.buf_wf, h.buf_within⟩).1
  calc replyEncoded (replyEncoded s)
    _ = setErr .none (sealBuffer RSZ (putCommonFields s (replyEncoded s).buf) s) := rfl
    _ = replyEncoded s := by rw [hsame, replyEncoded]

/-! ### Repeating a command -/

theorem exec_repeat_failed {i : Instr} {e : ErrCode} (hx : exec i s = .next (setErr e s)) :
    exec i (setErr e s) = .next (setErr e s) := (exec_withErr i s _).trans hx

theorem verify_repeat (least : Nat) (s : State) :
    verify least (setErr .none (verify least s)) = setErr .none (verify least s) := by
  rcases verify_cases least s with ⟨hlen, e⟩ | ⟨hlen, e⟩ <;> rw [e]
  · exact if_pos hlen
  · exact if_neg (Nat.not_lt.mpr hlen)

/-- A command that has run runs to the same state again: the invariants give the canonical buffers an encode needs. -/
theorem exec_repeat (i : Instr) (h : s.Inv) (hx : exec i s = .next t) : exec i t = .next t := by
  have ht := exec_inv i h hx
  cases i with
  | encFrame =>
    rcases execEncFrame_cases s with ⟨-, e⟩ | ⟨-, -, e⟩ | ⟨hlen, hd, e⟩ <;> cases e.symm.trans hx
    · exact exec_repeat_failed hx
    · exact exec_repeat_failed hx
    · exact (execEncFrame_success (s := frameEncoded s) hlen hd).trans
        (congrArg Host.Outcome.next (frameEncoded_again h ht hlen))
  | encReply =>
    rcases execEncReply_cases s with ⟨-, e⟩ | ⟨hd, e⟩ <;> cases e.symm.trans hx
    · exact exec_repeat_failed hx
    · exact (execEncReply_success (s := replyEncoded s) hd).trans
        (congrArg Host.Outcome.next (replyEncoded_again h ht))
  | verFrame => cases hx; exact (congrArg complete (verify_repeat MIN_FRAME s)).trans rfl
  | verReply => cases hx; exact (congrArg complete (verify_repeat MIN_REPLY s)).trans rfl
  | decFrame =>
    rcases execDecFrame_cases s with ⟨-, e⟩ | ⟨-, -, e⟩ | ⟨-, -, -, e⟩ | ⟨hv, hshort, hlen, e⟩ <;> cases e.symm.trans hx
    · exact exec_repeat_failed hx
    · exact exec_repeat_failed hx
    · exact exec_repeat_failed hx
    · exact (if_neg (by simp [hv])).trans ((if_neg (Nat.not_lt.mpr hshort)).trans (if_neg (Nat.not_lt.mpr hlen)))
  | decReply =>
    rcases execDecReply_cases s with ⟨-, e⟩ | ⟨-, -, e⟩ | ⟨hv, hshort, e⟩ <;> cases e.symm.trans hx
    · exact exec_repeat_failed hx
    · exact exec_repeat_failed hx
    · exact (if_neg (by simp [hv])).trans (if_neg (Nat.not_lt.mpr hshort))

/-- Settles O33: a word that is a command is a command again, and one that is none overwrites the same code. -/
theorem repeatingACommandChangesNothingMore : Obligations.RepeatingACommandChangesNothingMore := by
  intro w s t h hx
  rcases runCommand_cases w s with ⟨i, hw, e⟩ | ⟨_, -, e⟩
  · rw [runCommand_of_decode hw]
    exact exec_repeat i h (e.symm.trans hx)
  · cases raiseError_next.mp (e.symm.trans hx)
    exact (runCommand_withErr w s _).trans hx

end Sys2Proof.Machine
end

section
/-! Proofs about the command word (30_encoding.md R70, R72), that decoding and the word of a command are each other's
converse, and about the pseudo-operation `decodeFrame` (R76). -/

namespace Sys2Proof

/-! ### The command word -/

theorem commandWord_statement (i : Instr) : Laws.CommandWord.Statement i := by
  cases i with
  | encFrame => exact Laws.CommandWord.encFrame
  | encReply => exact Laws.CommandWord.encReply
  | verFrame => exact Laws.CommandWord.verFrame
  | verReply => exact Laws.CommandWord.verReply
  | decFrame => exact Laws.CommandWord.decFrame
  | decReply => exact Laws.CommandWord.decReply

/-- A word is the two fields of format `CMD32` (30_encoding.md R70). -/
theorem cmdWord_eq (w : Word) : w = cmdZero w ++ cmdOp w := by
  unfold cmdZero cmdOp
  rw [BitVec.extractLsb'_append_extractLsb'_eq_extractLsb' (by rfl)]
  exact BitVec.extractLsb'_eq_self.symm

/-- The opcode map is one to one (30_encoding.md R70). -/
theorem opOf_of_instrOfOp {op : Byte} {i : Instr} (h : instrOfOp op = .ok i) : op = opOf i := by
  unfold instrOfOp at h
  split at h <;> cases h <;> exact BitVec.eq_of_toNat_eq (by assumption)

/-- The decoder accepts the words of the commands and no other (30_encoding.md R70). -/
theorem decode_eq_ok {w : Word} {i : Instr} : decode w = .ok i ↔ w = encode i := by
  constructor
  · intro h
    unfold decode at h
    split at h
    · next hzero =>
      calc w = cmdZero w ++ cmdOp w := cmdWord_eq w
        _ = encode i := by rw [hzero, opOf_of_instrOfOp h, encode]
    · cases h
  · rintro rfl
    obtain ⟨-, -, -, hdecode, -⟩ := commandWord_statement i
    exact hdecode

/-- Settles O4: each row of the opcode map is the word of its command. -/
theorem opcodeMapSelectsTheCommand : Obligations.OpcodeMapSelectsTheCommand :=
  fun _ => ⟨decode_eq_ok, decode_eq_ok, decode_eq_ok, decode_eq_ok, decode_eq_ok, decode_eq_ok⟩

/-- The two fields of a word that is a command (30_encoding.md R70). -/
theorem fields_of_decode {w : Word} {i : Instr} (h : decode w = .ok i) :
    cmdZero w = 0#24 ∧ 1 ≤ (cmdOp w).toNat ∧ (cmdOp w).toNat ≤ 6 := by
  obtain ⟨hzero, hlow, hhigh, -, -⟩ := commandWord_statement i
  rw [decode_eq_ok.mp h]
  exact ⟨hzero, hlow, hhigh⟩

end Sys2Proof

namespace Sys2Proof.Machine

variable {s t : State}

/-- Settles O7: such a word has not the fields of a command, so its `CMD` write raises `E_ILLEGAL_CMD`. -/
theorem illegalWordSetsOnlyErr : Obligations.IllegalWordSetsOnlyErr := by
  intro s w rest hp hw
  rw [step_pending hp, handle_cmdRequest]
  rcases runCommand_cases w (respond .ok { s with pending := rest }) with ⟨i, hi, -⟩ | ⟨_, -, e⟩
  · obtain ⟨hzero, hlow, hhigh⟩ := fields_of_decode hi
    rcases hw with hw | hw | hw
    · exact absurd hzero hw
    · rw [cmdOp, hw] at hlow
      exact absurd hlow (by decide)
    · exact absurd hw (Nat.not_le.mpr (Nat.lt_succ_of_le hhigh))
  · exact e

/-! ### The pseudo-operation `decodeFrame` -/

theorem exec_commandFrame {i : Instr} (h : exec i s = .next t) : CommandFrame s t := by
  obtain ⟨u, hu, hframe⟩ := exec_frame i s
  cases hu.symm.trans h
  exact hframe

/-- `DEC_FRAME` writes no byte of `BUF`, on any path (43_decode.md R110). -/
theorem execDecFrame_buf (h : exec .decFrame s = .next t) : t.buf = s.buf := by
  rcases execDecFrame_cases s with ⟨-, e⟩ | ⟨-, -, e⟩ | ⟨-, -, -, e⟩ | ⟨-, -, -, e⟩ <;> cases e.symm.trans h <;> rfl

theorem runScript_rd {r : Reg} {v : Word} (h : regRead r s = .ok v) (sts : List Stmt) :
    runScript (.rd r :: sts) s = runScript sts (respond (.data v) s) := by
  rw [runScript_cons, handle_rd h, andThen_next]

/-- The part of `decodeFrame` up to its `rd LEN` is `DEC_FRAME` and four reads of registers. -/
theorem runScript_expand_decodeFrame (h : exec .decFrame s = .next t) :
    runScript (expand .decodeFrame) s =
      .next { t with
        responses := s.responses ++ [.ok, .data (statWord t), .data t.seq, .data t.disc, .data t.len] } := by
  rw [expand, runScript_cons, handle_cmd, exec_respond .decFrame .ok h, andThen_next, runScript_rd (r := .stat) rfl,
    runScript_rd (r := .seq) rfl, runScript_rd (r := .disc) rfl, runScript_rd (r := .len) rfl, runScript_nil]
  simp [respond, (exec_commandFrame h).responses, statWord]

/-- The `br` of `decodeFrame` are as many as the value its `rd LEN` answered (30_encoding.md R76). -/
theorem expandAfter_decodeFrame {answers : List Response} {v : Word} (h : answers.getLast? = some (.data v)) :
    expandAfter .decodeFrame answers = brFrom 20 v.toNat := by
  rw [expandAfter, lastValue, h, OFF_CONTENT_eq]

/-- Settles O52: the first part ends in the answer to `rd LEN`, and its `br` read the buffer `DEC_FRAME` left as it was. -/
theorem decodeFrameReadsThePayloadSlice : Obligations.DecodeFrameReadsThePayloadSlice := by
  intro s t h hlen
  rw [runPseudo, runScript_expand_decodeFrame h, andThen_next, List.drop_left,
    expandAfter_decodeFrame (v := t.len) rfl, runScript_brFrom _ _ _ hlen, List.range'_eq_map_range, List.map_map,
    ← execDecFrame_buf h, ← (exec_commandFrame h).cfg]
  rfl

end Sys2Proof.Machine
end

section
/-! Proofs about what `crc32` detects (40_checksum.md R80, R81, R85 item 5). A shift step is one to one, so two different
registers never meet again; four bytes enter the register as one 32-bit value, so a burst of four bytes makes the registers
differ. -/

namespace Sys2Proof.Machine

/-- Settles O37: the fixed value is evaluated. -/
theorem crcCheckValue : Obligations.CrcCheckValue := by
  unfold Obligations.CrcCheckValue
  decide

/-! ### Different registers stay different -/

/-- A shift step is a shift and one of two constants, which the bit shifted out selects. -/
theorem crcBit_eq (r : Word) : crcBit r = r >>> 1 ^^^ if r.getLsbD 0 then 0xEDB88320#32 else 0#32 := by
  unfold crcBit
  split
  · rfl
  · exact BitVec.xor_zero.symm

/-- Bit 31 of the constant `0xEDB88320` is 1, so bit 31 of the result says which bit was shifted out. -/
theorem crcBit_getLsbD_31 (r : Word) : (crcBit r).getLsbD 31 = r.getLsbD 0 := by
  rw [crcBit_eq]
  cases r.getLsbD 0 <;> simp

theorem ushiftRight_one_inj {r q : Word} (hlow : r.getLsbD 0 = q.getLsbD 0) (hshift : r >>> 1 = q >>> 1) : r = q := by
  refine BitVec.eq_of_getLsbD_eq fun i _ => ?_
  cases i with
  | zero => exact hlow
  | succ j => simpa [Nat.add_comm] using congrArg (BitVec.getLsbD · j) hshift

theorem crcBit_injective : Function.Injective crcBit := by
  intro r q h
  have hlow : r.getLsbD 0 = q.getLsbD 0 := by rw [← crcBit_getLsbD_31 r, h, crcBit_getLsbD_31]
  rw [crcBit_eq, crcBit_eq, hlow] at h
  exact ushiftRight_one_inj hlow ((BitVec.xor_left_inj _).mp h)

theorem crcBits_injective (n : Nat) : Function.Injective (crcBits n) := by
  induction n with
  | zero => exact fun _ _ h => h
  | succ n ih => exact fun r q h => crcBit_injective (ih (by simpa only [crcBits_succ] using h))

theorem crcByte_injective (b : Byte) : Function.Injective (crcByte · b) :=
  fun _ _ h => (BitVec.xor_left_inj _).mp (crcBits_injective 8 h)

theorem crcBytes_injective (bs : List Byte) : Function.Injective (crcBytes bs) := by
  induction bs with
  | nil => exact fun _ _ h => h
  | cons b bs ih => exact fun r q h => crcByte_injective b (ih (by simpa only [crcBytes_cons] using h))

/-- Two strings that take every register to different registers give different checksums in every context. -/
theorem crc32_splice_ne {bs cs : List Byte} (h : ∀ r, crcBytes bs r ≠ crcBytes cs r) (before after : List Byte) :
    crc32 (before ++ bs ++ after) ≠ crc32 (before ++ cs ++ after) := by
  intro e
  have hbytes := (BitVec.xor_left_inj _).mp e
  simp only [crcBytes_append] at hbytes
  exact h _ (crcBytes_injective after hbytes)

/-! ### Bytes entering the register -/

theorem crcByte_injective_byte (r : Word) : Function.Injective (crcByte r) := by
  intro b c h
  have hwide : b.setWidth 32 = c.setWidth 32 := (BitVec.xor_right_inj _).mp (crcBits_injective 8 h)
  simpa using congrArg (BitVec.setWidth 8) hwide

/-- Settles O38: a register takes different bytes to different registers. -/
theorem crcDetectsEveryOneByteChange : Obligations.CrcDetectsEveryOneByteChange := by
  intro before after b c hbc
  have hbyte (r : Word) : crcBytes [b] r ≠ crcBytes [c] r := by
    simpa using (crcByte_injective_byte r).ne hbc
  simpa using crc32_splice_ne hbyte before after

/-- What lies above bit 0 passes one shift step as it is, and the step does not depend on it. -/
theorem crcBit_xor_shiftLeft (r y : Word) (hy : y.getLsbD 31 = false) : crcBit (r ^^^ y <<< 1) = crcBit r ^^^ y := by
  have hshift : y <<< 1 >>> 1 = y := by
    refine BitVec.eq_of_getLsbD_eq fun i hi => ?_
    obtain hi' | rfl : i < 31 ∨ i = 31 := by omega
    · simp [Nat.add_comm 1 i, show i + 1 < 32 by omega, BitVec.getLsbD_eq_getElem hi]
    · simpa using hy.symm
  have hlow : (r ^^^ y <<< 1).getLsbD 0 = r.getLsbD 0 := by simp
  rw [crcBit_eq, crcBit_eq, hlow, BitVec.ushiftRight_xor_distrib, hshift]
  ac_rfl

/-- What lies above the low `n` bits passes `n` shift steps as it is. -/
theorem crcBits_xor_shiftLeft {w n : Nat} (hw : w + n ≤ 32) (r : Word) (y : BitVec w) :
    crcBits n (r ^^^ y.setWidth 32 <<< n) = crcBits n r ^^^ y.setWidth 32 := by
  induction n generalizing r with
  | zero => simp
  | succ n ih =>
    have hmsb : (y.setWidth 32 <<< n).getLsbD 31 = false := by
      simp [BitVec.getLsbD_of_ge y (31 - n) (by omega)]
    rw [BitVec.shiftLeft_add, crcBits_succ, crcBit_xor_shiftLeft _ _ hmsb, ih (by omega), crcBits_succ]

/-- A byte and the bits above it can enter the register together. -/
theorem crcByte_xor {w : Nat} (hw : w + 8 ≤ 32) (r : Word) (b : Byte) (y : BitVec w) :
    crcByte r b ^^^ y.setWidth 32 = crcBits 8 (r ^^^ (y ++ b).setWidth 32) := by
  have happend : (y ++ b).setWidth 32 = b.setWidth 32 ^^^ y.setWidth 32 <<< 8 := by
    refine BitVec.eq_of_getLsbD_eq fun i hi => ?_
    by_cases h : i < 8
    · simp [BitVec.getLsbD_append, h, hi]
    · simp [BitVec.getLsbD_append, h, hi, BitVec.getLsbD_of_ge b i (by omega)]
  rw [happend, ← BitVec.xor_assoc, crcBits_xor_shiftLeft hw, crcByte]

/-- Four bytes enter the register as one 32-bit value, the first byte lowest. -/
theorem crcBytes_four (a b c d : Byte) (r : Word) :
    crcBytes [a, b, c, d] r = crcBits 8 (crcBits 8 (crcBits 8 (crcBits 8 (r ^^^ (d ++ c ++ b ++ a))))) := by
  calc crcBytes [a, b, c, d] r
    _ = crcBits 8 (crcByte (crcByte (crcByte r a) b) c ^^^ d.setWidth 32) := by
      simp only [crcBytes_cons, crcBytes_nil, crcByte]
    _ = crcBits 8 (crcBits 8 (crcByte (crcByte r a) b ^^^ (d ++ c).setWidth 32)) := by rw [crcByte_xor (by decide)]
    _ = crcBits 8 (crcBits 8 (crcBits 8 (crcByte r a ^^^ (d ++ c ++ b).setWidth 32))) := by rw [crcByte_xor (by decide)]
    _ = _ := by rw [crcByte_xor (by decide), BitVec.setWidth_eq]

theorem crcBytes_four_injective {a b c d a' b' c' d' : Byte} {r : Word}
    (h : crcBytes [a, b, c, d] r = crcBytes [a', b', c', d'] r) : [a, b, c, d] = [a', b', c', d'] := by
  rw [crcBytes_four, crcBytes_four] at h
  have hword : d ++ c ++ b ++ a = d' ++ c' ++ b' ++ a' := (BitVec.xor_right_inj _).mp
    (crcBits_injective 8 (crcBits_injective 8 (crcBits_injective 8 (crcBits_injective 8 h))))
  have hbytes := congrArg be32 hword
  rw [be32_append, be32_append] at hbytes
  exact List.reverse_injective hbytes

/-- Settles O39: a register takes different strings of four bytes to different registers. -/
theorem crcDetectsEveryFourByteBurst : Obligations.CrcDetectsEveryFourByteBurst := by
  intro before after bs cs hbs hcs hne
  obtain ⟨a, b, c, d, rfl⟩ := List.length_eq_four.mp hbs
  obtain ⟨a', b', c', d', rfl⟩ := List.length_eq_four.mp hcs
  exact crc32_splice_ne (fun _ h => hne (crcBytes_four_injective h)) before after

/-! ### A changed buffer -/

/-- A slice around one of its bytes. -/
theorem Memory.readBytes_around (m : Memory) {o x n : Nat} (ho : o ≤ x) (hn : x < n) :
    m.readBytes o (n - o) = m.readBytes o (x - o) ++ m.read x :: m.readBytes (x + 1) (n - (x + 1)) := by
  rw [show n - o = x - o + (n - (x + 1) + 1) by omega, Memory.readBytes_add, show o + (x - o) = x by omega,
    Memory.readBytes]

theorem Memory.read_write_ne (m : Memory) {a x : Nat} (b : Byte) (h : x ≠ a) : (m.write a b).read x = m.read x :=
  (m.read_write a x b).trans (if_neg h)

theorem Memory.read_write_self (m : Memory) (a : Nat) (b : Byte) : (m.write a b).read a = b :=
  (m.read_write a a b).trans (if_pos rfl)

/-- A changed byte among those covered changes the checksum (40_checksum.md R83). -/
theorem checksum_write_ne {m : Memory} {a n : Nat} {b : Byte} (ha : COV ≤ a) (hn : a < n) (hb : b ≠ m.read a) :
    checksum (m.write a b) n ≠ checksum m n := by
  have hbefore : (m.write a b).readBytes COV (a - COV) = m.readBytes COV (a - COV) :=
    Memory.readBytes_congr _ _ _ _ fun x _ hx => m.read_write_ne b (by omega)
  have hafter : (m.write a b).readBytes (a + 1) (n - (a + 1)) = m.readBytes (a + 1) (n - (a + 1)) :=
    Memory.readBytes_congr _ _ _ _ fun x hx _ => m.read_write_ne b (by omega)
  intro e
  have hcrc := widen_inj _ _ e
  rw [Memory.readBytes_around _ ha hn, Memory.readBytes_around m ha hn, hbefore, hafter, m.read_write_self] at hcrc
  exact crcDetectsEveryOneByteChange _ _ b (m.read a) hb hcrc

/-- A changed byte of a 64-bit field changes the field. -/
theorem rdBe64_write_ne {m : Memory} {a o : Nat} {b : Byte} (ho : o ≤ a) (ha : a < o + 8) (hb : b ≠ m.read a) :
    rdBe64 (m.write a b) o ≠ rdBe64 m o := by
  intro e
  have hbytes : (m.write a b).readBytes o 8 = m.readBytes o 8 := by rw [← be64_rdBe64, e, be64_rdBe64]
  rw [show 8 = o + 8 - o by omega, Memory.readBytes_around _ ho ha, Memory.readBytes_around m ho ha] at hbytes
  have htail := List.append_inj_right hbytes (by simp)
  rw [m.read_write_self] at htail
  exact hb (List.head_eq_of_cons_eq htail)

/-- One changed byte breaks the match of the checksum with the stored one: it is either one of the bytes covered or one of
the checksum field, never both. -/
theorem checksum_write_ne_stored {m : Memory} {a n : Nat} {b : Byte} (hn : a < n) (hb : b ≠ m.read a)
    (hsum : rdBe64 m OFF_CHECKSUM = checksum m n) :
    checksum (m.write a b) n ≠ rdBe64 (m.write a b) OFF_CHECKSUM := by
  by_cases ha : COV ≤ a
  · have hstored : rdBe64 (m.write a b) OFF_CHECKSUM = rdBe64 m OFF_CHECKSUM :=
      rdBe64_congr _ _ _ fun x _ hx => m.read_write_ne b (by simp at ha hx; omega)
    rw [hstored, hsum]
    exact checksum_write_ne ha hn hb
  · have hkept : checksum (m.write a b) n = checksum m n :=
      checksum_congr _ _ _ fun x hx _ => m.read_write_ne b (by omega)
    rw [hkept, ← hsum]
    exact (rdBe64_write_ne (Nat.zero_le a) (by simpa using ha) hb).symm

theorem verify_valid_false (least : Nat) {s : State} (h : checksum s.buf s.buflen.toNat ≠ storedChecksum s) :
    (verify least s).valid = false := by
  rcases verify_cases least s with ⟨-, e⟩ | ⟨-, e⟩ <;> rw [e]
  exact decide_eq_false h

/-- Settles O40: the match R25(e) gives is broken, so both verifies answer `VALID = 0`. -/
theorem changedBufferNeverVerifies : Obligations.ChangedBufferNeverVerifies := by
  intro s a b i h hv ha hb hi
  have hbroken := checksum_write_ne_stored ha hb (h.valid_sum hv)
  have hinvalid (least : Nat) := verify_valid_false (s := { s with buf := s.buf.write a b }) least hbroken
  rcases hi with rfl | rfl
  · exact ⟨_, rfl, hinvalid MIN_FRAME⟩
  · exact ⟨_, rfl, hinvalid MIN_REPLY⟩

end Sys2Proof.Machine
end

section
/-! A buffer told by the strings of bytes that stand in it one behind the other, and sealed buffers, whose bytes stand behind
their own checksum (40_checksum.md R83, R84): what an encode command builds, a verify finds valid and a decode reads. -/

namespace Sys2Proof.Machine

variable {s t : State} {m : Memory} {a b : Nat} {bs cs body : List Byte}

/-! ### Bytes that stand in a buffer -/

/-- The bytes `bs` stand in the buffer from offset `a` on. -/
def Memory.HoldsAt (m : Memory) (a : Nat) (bs : List Byte) : Prop := m.readBytes a bs.length = bs

theorem Memory.holdsAt_append : m.HoldsAt a (bs ++ cs) ↔ m.HoldsAt a bs ∧ m.HoldsAt (a + bs.length) cs := by
  rw [Memory.HoldsAt, List.length_append, Memory.readBytes_add]
  exact ⟨fun h => List.append_inj h (Memory.readBytes_length _ _ _), fun ⟨hbs, hcs⟩ => congrArg₂ (· ++ ·) hbs hcs⟩

theorem Memory.HoldsAt.read (h : m.HoldsAt a bs) {i : Nat} (hi : i < bs.length) : m.read (a + i) = bs[i] := by
  rw [← Memory.readBytes_getElem m a bs.length i (by simpa using hi)]
  exact List.getElem_of_eq h _

theorem Memory.holdsAt_writeBytes (m : Memory) (a : Nat) (bs : List Byte) : (m.writeBytes a bs).HoldsAt a bs :=
  Memory.readBytes_writeBytes m a bs

theorem Memory.HoldsAt.writeOutside (h : m.HoldsAt a bs) (cs : List Byte) (hb : a + bs.length ≤ b ∨ b + cs.length ≤ a) :
    (m.writeBytes b cs).HoldsAt a bs :=
  (Memory.readBytes_congr _ _ _ _ fun _ _ _ => Memory.read_writeBytes_outside _ _ _ _ (by omega)).trans h

/-- A write where the bytes end appends to them. -/
theorem Memory.HoldsAt.writeNext (h : m.HoldsAt a bs) (cs : List Byte) (hb : b = a + bs.length) :
    (m.writeBytes b cs).HoldsAt a (bs ++ cs) :=
  Memory.holdsAt_append.mpr ⟨h.writeOutside cs (by omega), hb ▸ Memory.holdsAt_writeBytes m b cs⟩

/-- The checksum of a buffer is that of the bytes that stand behind the checksum field (40_checksum.md R83). -/
theorem checksum_of_holdsAt {n : Nat} (h : m.HoldsAt 8 body) (hn : n = 8 + body.length) :
    checksum m n = widen (crc32 body) := by
  rw [checksum, COV_eq, hn, Nat.add_sub_cancel_left, h]

/-! ### Sealed buffers -/

/-- `BUF[0 : BUFLEN]` is the string `body` behind its own checksum (40_checksum.md R83, R84). -/
structure Sealed (body : List Byte) (s : State) : Prop where
  buflen : s.buflen.toNat = 8 + body.length
  buf : s.buf.HoldsAt 0 (be64 (widen (crc32 body)) ++ body)

theorem Sealed.content (h : Sealed body s) : s.buf.HoldsAt 8 body := (Memory.holdsAt_append.mp h.buf).2

theorem Sealed.checksum (h : Sealed body s) : Machine.checksum s.buf s.buflen.toNat = widen (crc32 body) :=
  checksum_of_holdsAt h.content h.buflen

theorem Sealed.storedChecksum (h : Sealed body s) : Machine.storedChecksum s = widen (crc32 body) :=
  rdBe64_of_readBytes _ _ _ (Memory.holdsAt_append.mp h.buf).1

theorem Sealed.respond (h : Sealed body s) (r : Response) : Sealed body (respond r s) := ⟨h.buflen, h.buf⟩

/-- Sealing stores the checksum below the bytes it covers. -/
theorem sealBuffer_sealed {n : Nat} (h : m.HoldsAt 8 body) (hn : n = 8 + body.length) (hsize : n < 2 ^ 32) (s : State) :
    Sealed body (sealBuffer n m s) where
  buflen := (Nat.mod_eq_of_lt hsize).trans hn
  buf := by
    rw [sealBuffer_buf, checksum_of_holdsAt h hn]
    exact Memory.holdsAt_append.mpr ⟨Memory.holdsAt_writeBytes m 0 _, h.writeOutside _ (by simp)⟩

/-- A verify finds a sealed buffer of at least its minimum length valid (42_verify.md R100, R101). -/
theorem Sealed.verify (h : Sealed body s) {least : Nat} (hleast : least ≤ 8 + body.length) :
    Machine.verify least s = { s with csum := widen (crc32 body), valid := true } := by
  have hlen := h.buflen
  rcases verify_cases least s with ⟨hshort, -⟩ | ⟨-, e⟩
  · omega
  · rw [e, h.checksum, h.storedChecksum, decide_eq_true rfl]

/-- The state a verify leaves that has found `body` valid. -/
def verified (body : List Byte) (s : State) : State :=
  { s with csum := widen (crc32 body), valid := true, err := 0x00#8 }

theorem Sealed.verified (h : Sealed body s) : Sealed body (Machine.verified body s) := ⟨h.buflen, h.buf⟩

theorem Sealed.exec_verFrame (h : Sealed body s) (hleast : 20 ≤ 8 + body.length) :
    exec .verFrame s = .next (Machine.verified body s) :=
  congrArg complete (h.verify hleast)

theorem Sealed.exec_verReply (h : Sealed body s) (hleast : 16 ≤ 8 + body.length) :
    exec .verReply s = .next (Machine.verified body s) :=
  congrArg complete (h.verify hleast)

end Sys2Proof.Machine
end

section
/-! Proofs about the encode commands (41_encode.md R90 to R92): each writes a string of bytes where the one before ends, so the
buffer it seals is made of its operands alone. -/

namespace Sys2Proof.Machine

open Sys2Proof.Claims

variable {s t : State} {m : Memory} {body : List Byte}

/-! ### The Reply `ENC_REPLY` builds -/

/-- The bytes of a Reply behind its checksum, which are the fields both formats share (30_encoding.md R62). -/
def replyBody (seq status : Word) : List Byte := be32 seq ++ be32 status

theorem putCommonFields_holdsAt (s : State) (m : Memory) : (putCommonFields s m).HoldsAt 8 (replyBody s.seq s.disc) :=
  (Memory.holdsAt_writeBytes _ 8 (be32 s.seq)).writeNext (be32 s.disc) rfl

theorem replyEncoded_sealed (s : State) : Sealed (replyBody s.seq s.disc) (replyEncoded s) :=
  have h := sealBuffer_sealed (n := 16) (putCommonFields_holdsAt s s.buf) rfl (by decide) s
  ⟨h.buflen, h.buf⟩

theorem replyEncoded_csum (s : State) : (replyEncoded s).csum = widen (crc32 (replyBody s.seq s.disc)) :=
  checksum_of_holdsAt (putCommonFields_holdsAt s s.buf) rfl

/-! ### The Frame `ENC_FRAME` builds -/

/-- The bytes of a Frame behind its checksum: the header fields, the content and the zero padding (30_encoding.md R61,
R64). -/
def frameBody (c : Config) (seq kind : Word) (content : List Byte) : List Byte :=
  replyBody seq kind ++ (be32 (BitVec.ofNat 32 content.length) ++
    (content ++ List.replicate (c.cap - content.length) 0x00#8))

theorem frameBody_length (c : Config) (seq kind : Word) (content : List Byte) :
    (frameBody c seq kind content).length = 12 + (content.length + (c.cap - content.length)) := by
  simp [frameBody, replyBody]
  omega

/-- Whatever the payload, the padding makes a Frame `F` bytes long (30_encoding.md R64). -/
theorem frame_size (hlen : s.len.toNat ≤ s.cfg.cap) :
    s.cfg.F = 8 + (frameBody s.cfg s.seq s.disc (payload s)).length := by
  have hcap := s.cfg.cap_add_header
  rw [frameBody_length, payload_length]
  omega

/-- Where each part of a Frame stands (30_encoding.md R61). -/
theorem holdsAt_frameBody {c : Config} {seq kind : Word} {content : List Byte} :
    m.HoldsAt 8 (frameBody c seq kind content) ↔
      m.HoldsAt 8 (be32 seq) ∧ m.HoldsAt 12 (be32 kind) ∧ m.HoldsAt 16 (be32 (BitVec.ofNat 32 content.length)) ∧
        m.HoldsAt 20 content ∧ m.HoldsAt (20 + content.length) (List.replicate (c.cap - content.length) 0x00#8) := by
  simp [frameBody, replyBody, Memory.holdsAt_append]

theorem frameOver_holdsAt (s : State) (m : Memory) :
    (frameOver s m).HoldsAt 8 (frameBody s.cfg s.seq s.disc (payload s)) := by
  have hlen := (putCommonFields_holdsAt s m).writeNext (be32 s.len) (b := 16) rfl
  have hpay := hlen.writeNext (payload s) (b := 20) rfl
  have hpad := hpay.writeNext (List.replicate (s.cfg.cap - s.len.toNat) 0x00#8) (b := 20 + s.len.toNat)
    (by simp [replyBody]; omega)
  simpa [frameBody, frameOver, putContent] using hpad

theorem frameEncoded_sealed (hlen : s.len.toNat ≤ s.cfg.cap) :
    Sealed (frameBody s.cfg s.seq s.disc (payload s)) (frameEncoded s) :=
  have hF := s.cfg.F_le
  have h := sealBuffer_sealed (frameOver_holdsAt s s.buf) (frame_size hlen) (by omega) s
  ⟨h.buflen, h.buf⟩

theorem frameEncoded_csum (hlen : s.len.toNat ≤ s.cfg.cap) :
    (frameEncoded s).csum = widen (crc32 (frameBody s.cfg s.seq s.disc (payload s))) :=
  checksum_of_holdsAt (frameOver_holdsAt s s.buf) (frame_size hlen)

/-- `ENC_FRAME` writes the first `F` bytes alone. -/
theorem sealedFrame_agreeOutside (hlen : s.len.toNat ≤ s.cfg.cap) :
    (frameEncoded s).buf.AgreeOutside 0 s.cfg.F s.buf := by
  have hcap := s.cfg.cap_add_header
  have hself : s.buf.AgreeOutside 0 s.cfg.F s.buf := fun _ _ => rfl
  have h0 := hself.writeInside (a := 0) (be64 0#64) le_rfl (by simp; omega)
  have h8 := h0.writeInside (a := 8) (be32 s.seq) (Nat.zero_le _) (by simp; omega)
  have h12 := h8.writeInside (a := 12) (be32 s.disc) (Nat.zero_le _) (by simp; omega)
  have h16 := h12.writeInside (a := 16) (be32 s.len) (Nat.zero_le _) (by simp; omega)
  have h20 := h16.writeInside (a := 20) (payload s) (Nat.zero_le _) (by simp; omega)
  have hpad := h20.writeInside (a := 20 + s.len.toNat) (List.replicate (s.cfg.cap - s.len.toNat) 0x00#8)
    (Nat.zero_le _) (by simp; omega)
  exact hpad.writeInside (a := 0) (be64 _) le_rfl (by simp; omega)

/-! ### The encode commands, whole -/

theorem legalDisc_eq_false (h : ¬ LegalDisc s) : legalDisc s.disc = false :=
  Bool.eq_false_iff.mpr fun hd => h ((legalDisc_iff _).mp hd)

theorem legalDisc_eq_true (h : LegalDisc s) : legalDisc s.disc = true := (legalDisc_iff _).mpr h

/-- What a completed encode command leaves, told by the buffer it leaves. -/
theorem setErr_sealBuffer (n : Nat) (m : Memory) (s : State) :
    setErr .none (sealBuffer n m s) =
      { s with
        buf := (sealBuffer n m s).buf, buflen := BitVec.ofNat 32 n, csum := sumOf (sealBuffer n m s).buf n,
        valid := false, err := 0x00#8 } := by
  rw [← sealBuffer_csum_eq]
  rfl

/-- The checksum field holds the checksum of the finished buffer. -/
theorem sealBuffer_holdsAt_sumOf (n : Nat) (m : Memory) (s : State) :
    (sealBuffer n m s).buf.HoldsAt 0 (be64 (sumOf (sealBuffer n m s).buf n)) := by
  rw [← sealBuffer_csum_eq]
  exact Memory.holdsAt_writeBytes m 0 _

/-- Settles O8: the sealed buffer holds the bytes of the Frame one behind the other, and nothing past them is written. -/
theorem encFrameBuildsTheFrame : Obligations.EncFrameBuildsTheFrame := by
  intro s
  refine ⟨fun hlen => if_pos hlen,
    fun hlen hd => (if_neg (Nat.not_lt.mpr hlen)).trans (if_pos (legalDisc_eq_false hd)), fun hlen hd => ?_⟩
  obtain ⟨hseq, hdisc, hlength, hpay, hzero⟩ := holdsAt_frameBody.mp (frameEncoded_sealed hlen).content
  simp only [payload_length, BitVec.ofNat_toNat, BitVec.setWidth_eq] at hlength hzero
  rw [Memory.HoldsAt, payload_length] at hpay
  have hcap := s.cfg.cap_add_header
  refine ⟨(frameEncoded s).buf,
    (execEncFrame_success hlen (legalDisc_eq_true hd)).trans (congrArg _ (setErr_sealBuffer _ _ s)),
    sealBuffer_holdsAt_sumOf _ _ s, hseq, hdisc, hlength, hpay, fun a hlow hhigh => ?_,
    fun a ha => sealedFrame_agreeOutside hlen a (.inr ha)⟩
  have hbyte := hzero.read (i := a - (20 + s.len.toNat)) (by simp; omega)
  rwa [Nat.add_sub_cancel' hlow, List.getElem_replicate] at hbyte

/-- Settles O9: the sealed buffer holds the two fields, and nothing from offset 16 on is written. -/
theorem encReplyBuildsTheReply : Obligations.EncReplyBuildsTheReply := by
  intro s
  refine ⟨fun hd => if_pos (legalDisc_eq_false hd), fun hd => ?_⟩
  obtain ⟨hseq, hdisc⟩ := Memory.holdsAt_append.mp (replyEncoded_sealed s).content
  exact ⟨(replyEncoded s).buf,
    (execEncReply_success (legalDisc_eq_true hd)).trans (congrArg _ (setErr_sealBuffer _ _ s)),
    sealBuffer_holdsAt_sumOf _ _ s, hseq, hdisc, fun a ha => sealedReply_agreeOutside s a (.inr ha)⟩

/-- Settles O41: both buffers are sealed, and the 16 bytes of a Reply are too few for `VER_FRAME`. -/
theorem encodedBufferVerifies : Obligations.EncodedBufferVerifies := by
  intro s hd
  have hlegal := legalDisc_eq_true hd
  have hreply := replyEncoded_sealed s
  refine ⟨fun hlen => ?_, _, _, _, execEncReply_success hlegal, hreply.exec_verReply le_rfl, rfl, rfl, ?_⟩
  · exact ⟨_, _, execEncFrame_success hlen hlegal,
      (frameEncoded_sealed hlen).exec_verFrame (by rw [frameBody_length]; omega), rfl⟩
  · rcases verify_cases MIN_FRAME (replyEncoded s) with ⟨-, e⟩ | ⟨hlong, -⟩
    · rw [e]; rfl
    · rw [hreply.buflen] at hlong
      exact absurd hlong (by simp [replyBody])

/-- Two states whose buffers are the same sealed string agree on it and on its length. -/
theorem Sealed.agree (h : Sealed body s) (h' : Sealed body t) {n : Nat} (hn : n = 8 + body.length) :
    s.buf.readBytes 0 n = t.buf.readBytes 0 n ∧ s.buflen = t.buflen := by
  have hsize : n = (be64 (widen (crc32 body)) ++ body).length := by simp [hn]
  exact ⟨by rw [hsize, h.buf, h'.buf], BitVec.eq_of_toNat_eq (h.buflen.trans h'.buflen.symm)⟩

/-- Settles O44: the string an encode seals, and so its checksum, is made of the operands alone. -/
theorem encodeDependsOnItsOperandsAlone : Obligations.EncodeDependsOnItsOperandsAlone := by
  intro s s' t t' hseq hdisc
  refine ⟨fun hcfg hlen hpay hfits hd hx hx' => ?_, fun hd hx hx' => ?_⟩
  · have hfits' : s'.len.toNat ≤ s'.cfg.cap := by rwa [← hcfg, ← hlen]
    have hd' : LegalDisc s' := by rwa [LegalDisc, ← hdisc]
    have hbody : frameBody s'.cfg s'.seq s'.disc (payload s') = frameBody s.cfg s.seq s.disc (payload s) := by
      rw [← hcfg, ← hseq, ← hdisc, payload, payload, ← hlen, hpay]
    cases (execEncFrame_success hfits (legalDisc_eq_true hd)).symm.trans hx
    cases (execEncFrame_success hfits' (legalDisc_eq_true hd')).symm.trans hx'
    obtain ⟨hbuf, hbuflen⟩ := (frameEncoded_sealed hfits).agree (hbody ▸ frameEncoded_sealed hfits') (frame_size hfits)
    exact ⟨hbuf, by rw [frameEncoded_csum hfits, frameEncoded_csum hfits', hbody], hbuflen⟩
  · have hd' : LegalDisc s' := by rwa [LegalDisc, ← hdisc]
    have hbody : replyBody s'.seq s'.disc = replyBody s.seq s.disc := by rw [hseq, hdisc]
    cases (execEncReply_success (legalDisc_eq_true hd)).symm.trans hx
    cases (execEncReply_success (legalDisc_eq_true hd')).symm.trans hx'
    obtain ⟨hbuf, hbuflen⟩ := (replyEncoded_sealed s).agree (hbody ▸ replyEncoded_sealed s') rfl
    exact ⟨hbuf, by rw [replyEncoded_csum, replyEncoded_csum, hbody], hbuflen⟩

end Sys2Proof.Machine
end

section
/-! Proofs of the round trips (41_encode.md R92 items 2 and 3): a decode takes the fields out of a sealed buffer, and each
encode script leaves one. -/

namespace Sys2Proof.Machine

variable {s t : State} {body : List Byte}

/-! ### Decoding a sealed buffer -/

/-- `DEC_FRAME` takes the fields of a Frame found valid (43_decode.md R110). -/
theorem Sealed.exec_decFrame {c : Config} {seq kind : Word} {content : List Byte}
    (h : Sealed (frameBody c seq kind content) s) (hv : s.valid = true) :
    exec .decFrame s =
      .next { s with seq := seq, disc := kind, len := BitVec.ofNat 32 content.length, err := 0x00#8 } := by
  obtain ⟨hseq, hkind, hlength, -, -⟩ := holdsAt_frameBody.mp h.content
  have hfieldSeq : fieldSequence s = seq := rdBe32_of_readBytes _ _ _ hseq
  have hfieldDisc : fieldDisc s = kind := rdBe32_of_readBytes _ _ _ hkind
  have hfieldLen : fieldLength s = BitVec.ofNat 32 content.length := rdBe32_of_readBytes _ _ _ hlength
  have hle : (fieldLength s).toNat ≤ content.length := by rw [hfieldLen, BitVec.toNat_ofNat]; exact Nat.mod_le _ _
  have hbuflen := h.buflen
  rw [frameBody_length] at hbuflen
  rcases execDecFrame_cases s with ⟨hv', -⟩ | ⟨-, hshort, -⟩ | ⟨-, -, hlong, -⟩ | ⟨-, -, -, e⟩
  · exact absurd (hv'.symm.trans hv) (by decide)
  · omega
  · omega
  · rw [exec, e, takeCommonFields, hfieldSeq, hfieldDisc, hfieldLen]
    rfl

/-- `DEC_REPLY` takes the fields of a Reply found valid (43_decode.md R111). -/
theorem Sealed.exec_decReply {seq status : Word} (h : Sealed (replyBody seq status) s) (hv : s.valid = true) :
    exec .decReply s = .next { s with seq := seq, disc := status, err := 0x00#8 } := by
  obtain ⟨hseq, hstatus⟩ := Memory.holdsAt_append.mp h.content
  have hfieldSeq : fieldSequence s = seq := rdBe32_of_readBytes _ _ _ hseq
  have hfieldDisc : fieldDisc s = status := rdBe32_of_readBytes _ _ _ hstatus
  have hbuflen : s.buflen.toNat = 16 := h.buflen
  rcases execDecReply_cases s with ⟨hv', -⟩ | ⟨-, hshort, -⟩ | ⟨-, -, e⟩
  · exact absurd (hv'.symm.trans hv) (by decide)
  · omega
  · rw [exec, e, takeCommonFields, hfieldSeq, hfieldDisc]
    rfl

/-! ### The scripts -/

theorem runScript_cmd {i : Instr} (h : exec i s = .next t) (sts : List Stmt) :
    runScript (.cmd i :: sts) s = runScript sts (respond .ok t) := by
  rw [runScript_cons, handle_cmd, exec_respond i .ok h, andThen_next]

/-- A script that ends in two commands. -/
theorem runScript_append_cmd_cmd {sts : List Stmt} {i j : Instr} {u v : State} (hrun : runScript sts s = .next t)
    (hi : exec i t = .next u) (hj : exec j (respond .ok u) = .next v) :
    runScript (sts ++ [.cmd i, .cmd j]) s = .next (respond .ok v) := by
  rw [runScript_append, hrun, andThen_next, runScript_cmd hi, runScript_cmd hj, runScript_nil]

theorem runScript_wr {r : Reg} {n : Nat} (h : regWrite r (BitVec.ofNat 32 n) s = .next t) (sts : List Stmt) :
    runScript (.wr r n :: sts) s = runScript sts t := by
  rw [runScript_cons, stmtEvent, stmtTransaction, handle_regWrite, h, andThen_next]

/-- Both encode scripts begin with the fields the two formats share (30_encoding.md R76). -/
theorem runScript_wrFields (s : State) (seq disc : Word) (sts : List Stmt) :
    runScript (.wr .seq seq.toNat :: .wr .disc disc.toNat :: sts) s =
      runScript sts { s with seq := seq, disc := disc, responses := s.responses ++ [.ok] ++ [.ok] } := by
  rw [runScript_wr (r := .seq) rfl, runScript_wr (r := .disc) rfl]
  simp [respond]

/-- Both encode scripts end with the command and a read of `STAT` (30_encoding.md R76). -/
theorem runScript_sealed {i : Instr} (hx : exec i s = .next t) (h : Sealed body t) :
    ∃ u, runScript [.cmd i, .rd .stat] s = .next u ∧ Sealed body u :=
  ⟨respond (.data (statWord t)) (respond .ok t),
    by rw [runScript_cmd hx, runScript_rd (r := .stat) rfl, runScript_nil]; rfl, (h.respond _).respond _⟩

/-- The script `encode` loads the operands of `ENC_FRAME` before its command (30_encoding.md R76). -/
theorem runScript_frameOperands (s : State) (seq kind : Word) {p : List Byte} (hp : p.length ≤ s.cfg.cap)
    (sts : List Stmt) :
    ∃ t, runScript ([.wr .seq seq.toNat, .wr .disc kind.toNat] ++ (pwFrom 0 p ++ .wr .len p.length :: sts)) s =
        runScript sts t ∧
      t.cfg = s.cfg ∧ t.seq = seq ∧ t.disc = kind ∧ t.len.toNat = p.length ∧ payload t = p := by
  have hcap := s.cfg.cap_add_header
  have hF := s.cfg.F_le
  have hlen : (BitVec.ofNat 32 p.length).toNat = p.length := Nat.mod_eq_of_lt (by omega)
  obtain ⟨m, r, hrun, hm⟩ := runScript_pwFrom p 0
    { s with seq := seq, disc := kind, responses := s.responses ++ [.ok] ++ [.ok] } (by simpa using hp)
  have hpay : m.readBytes 0 (BitVec.ofNat 32 p.length).toNat = p := by
    rw [hlen, Memory.readBytes_congr _ _ _ _ fun x _ _ => hm x, Memory.readBytes_writeBytes]
  refine ⟨respond .ok { s with
    seq := seq, disc := kind, pay := m, len := BitVec.ofNat 32 p.length,
    responses := s.responses ++ [.ok] ++ [.ok] ++ r }, ?_, rfl, rfl, rfl, hlen, hpay⟩
  rw [List.cons_append, List.cons_append, List.nil_append, runScript_wrFields, runScript_append, hrun, andThen_next,
    runScript_wr (r := .len) rfl]

/-- The script `encode` leaves the Frame sealed in `BUF` (30_encoding.md R76). -/
theorem runScript_encode (s : State) {seq kind : Word} (hk : kind = 1#32 ∨ kind = 2#32) {p : List Byte}
    (hp : p.length ≤ s.cfg.cap) :
    ∃ t, runScript (expand (.encode seq.toNat kind.toNat p)) s = .next t ∧ Sealed (frameBody s.cfg seq kind p) t := by
  obtain ⟨u, hrun, hcfg, hseq, hdisc, hlen, hpay⟩ := runScript_frameOperands s seq kind hp [.cmd .encFrame, .rd .stat]
  have hfits : u.len.toNat ≤ u.cfg.cap := by rwa [hlen, hcfg]
  have hlegal : legalDisc u.disc = true := by rwa [hdisc, legalDisc_iff]
  have hsealed := frameEncoded_sealed hfits
  rw [hcfg, hseq, hdisc, hpay] at hsealed
  rw [expand, List.append_assoc, hrun]
  exact runScript_sealed (i := .encFrame) (execEncFrame_success hfits hlegal) hsealed

/-- The script `encodeReply` leaves the Reply sealed in `BUF` (30_encoding.md R76). -/
theorem runScript_encodeReply (s : State) {seq status : Word} (hs : status = 1#32 ∨ status = 2#32) :
    ∃ t, runScript (expand (.encodeReply seq.toNat status.toNat)) s = .next t ∧ Sealed (replyBody seq status) t := by
  have hsealed := replyEncoded_sealed
    { s with seq := seq, disc := status, responses := s.responses ++ [.ok] ++ [.ok] }
  rw [expand, runScript_wrFields]
  exact runScript_sealed (i := .encReply) (execEncReply_success ((legalDisc_iff _).mpr hs)) hsealed

/-! ### The statements -/

/-- What `STAT` reads as while a valid buffer stands and the last command completed (10_state.md R18). -/
theorem statWord_valid (hv : s.valid = true) (he : s.err = 0x00#8) : statWord s = 0x00000001#32 := by
  rw [statWord, hv, he]
  decide

/-- Settles O42: the Frame the script seals is found valid and its fields are taken, from a buffer that holds `p`. -/
theorem frameRoundTrip : Obligations.FrameRoundTrip := by
  intro s seq kind p hk hp
  have hF := s.cfg.F_le
  obtain ⟨t, hrun, hsealed⟩ := runScript_encode s (seq := seq) hk hp
  have hver := hsealed.exec_verFrame (by rw [frameBody_length]; omega)
  have hdec := (hsealed.verified.respond .ok).exec_decFrame rfl
  obtain ⟨-, -, -, hcontent, -⟩ := holdsAt_frameBody.mp hsealed.content
  exact ⟨_, runScript_append_cmd_cmd hrun hver hdec, statWord_valid rfl rfl, rfl, rfl, Nat.mod_eq_of_lt (by omega),
    hcontent⟩

/-- Settles O43: the Reply the script seals is found valid and its fields are taken. -/
theorem replyRoundTrip : Obligations.ReplyRoundTrip := by
  intro s seq status hs
  obtain ⟨t, hrun, hsealed⟩ := runScript_encodeReply s (seq := seq) hs
  have hver := hsealed.exec_verReply le_rfl
  have hdec := (hsealed.verified.respond .ok).exec_decReply rfl
  exact ⟨_, runScript_append_cmd_cmd hrun hver hdec, statWord_valid rfl rfl, rfl, rfl⟩

end Sys2Proof.Machine
end

section
/-! Proofs about the verify commands (42_verify.md R100, R101) and about what a verify or a decode reads of its state
(43_decode.md R110, R111): two states that agree on the operands take the same branch and give the same results. -/

namespace Sys2Proof.Machine

variable {s s' t t' : State} {m m' : Memory} {a n o least : Nat} {i : Instr} {e : ErrCode}

/-! ### The verify commands -/

theorem verify_of_lt (h : s.buflen.toNat < least) : verify least s = { s with valid := false } := if_pos h

theorem verify_of_le (h : least ≤ s.buflen.toNat) :
    verify least s = { s with
      csum := checksum s.buf s.buflen.toNat,
      valid := decide (checksum s.buf s.buflen.toNat = storedChecksum s) } := if_neg (Nat.not_lt.mpr h)

/-- Settles O10: the verify of 20 bytes and more, completed. -/
theorem verFrameComparesTheChecksum : Obligations.VerFrameComparesTheChecksum :=
  fun _ => ⟨fun h => congrArg complete (verify_of_lt h), fun h => congrArg complete (verify_of_le h)⟩

/-- Settles O11: the verify of 16 bytes and more, completed. -/
theorem verReplyComparesTheChecksum : Obligations.VerReplyComparesTheChecksum :=
  fun _ => ⟨fun h => congrArg complete (verify_of_lt h), fun h => congrArg complete (verify_of_le h)⟩

/-- Settles O12: both commands find the buffer long enough, and then compare the same checksums. -/
theorem verifyCommandsAgreeFromTwentyBytes : Obligations.VerifyCommandsAgreeFromTwentyBytes := by
  intro s h
  obtain ⟨-, hframe⟩ := verFrameComparesTheChecksum s
  obtain ⟨-, hreply⟩ := verReplyComparesTheChecksum s
  exact (hframe h).trans (hreply (by omega)).symm

/-! ### Values read from equal slices -/

/-- Equal slices have equal bytes, the converse of `Memory.readBytes_congr`. -/
theorem Memory.read_eq_of_readBytes_eq (h : m.readBytes a n = m'.readBytes a n) {x : Nat} (hlow : a ≤ x)
    (hhigh : x < a + n) : m.read x = m'.read x := by
  have hbyte := List.getElem_of_eq h (i := x - a) (by simp; omega)
  rwa [Memory.readBytes_getElem, Memory.readBytes_getElem, Nat.add_sub_cancel' hlow] at hbyte

theorem rdBe32_eq_of_readBytes_eq (h : m.readBytes a n = m'.readBytes a n) (hlow : a ≤ o) (hhigh : o + 4 ≤ a + n) :
    rdBe32 m o = rdBe32 m' o :=
  rdBe32_congr _ _ _ fun _ _ _ => Memory.read_eq_of_readBytes_eq h (by omega) (by omega)

theorem rdBe64_eq_of_readBytes_eq (h : m.readBytes a n = m'.readBytes a n) (hlow : a ≤ o) (hhigh : o + 8 ≤ a + n) :
    rdBe64 m o = rdBe64 m' o :=
  rdBe64_congr _ _ _ fun _ _ _ => Memory.read_eq_of_readBytes_eq h (by omega) (by omega)

theorem checksum_eq_of_readBytes_eq (h : m.readBytes 0 n = m'.readBytes 0 n) : checksum m n = checksum m' n :=
  checksum_congr _ _ _ fun _ _ _ => Memory.read_eq_of_readBytes_eq h (by omega) (by omega)

/-! ### What a verify reads -/

/-- A verify whose minimum length covers the checksum field reads `BUFLEN` and `BUF[0 : BUFLEN]` alone; where the buffer is
too short it keeps the old `CSUM`. -/
theorem verify_agree (hleast : 8 ≤ least) (hlen : s.buflen = s'.buflen)
    (hbuf : s.buf.readBytes 0 s.buflen.toNat = s'.buf.readBytes 0 s.buflen.toNat) :
    (verify least s).valid = (verify least s').valid ∧
    (least ≤ s.buflen.toNat ∨ s.csum = s'.csum → (verify least s).csum = (verify least s').csum) := by
  rcases Nat.lt_or_ge s.buflen.toNat least with hshort | hlong
  · rw [verify_of_lt hshort, verify_of_lt (hlen ▸ hshort)]
    exact ⟨rfl, fun h => h.resolve_left (Nat.not_le.mpr hshort)⟩
  · have hsum := checksum_eq_of_readBytes_eq hbuf
    have hstored : storedChecksum s = storedChecksum s' := rdBe64_eq_of_readBytes_eq hbuf le_rfl (by simp; omega)
    rw [verify_of_le hlong, verify_of_le (hlen ▸ hlong), ← hlen, hsum, hstored]
    exact ⟨rfl, fun _ => rfl⟩

/-! ### What a decode reads -/

theorem exec_decFrame_of_not_valid (hv : s.valid = false) : exec .decFrame s = .next (setErr .notVerified s) := if_pos hv

theorem exec_decFrame_of_short (hv : s.valid = true) (hlen : s.buflen.toNat < 20) :
    exec .decFrame s = .next (setErr .short s) := (if_neg (by simp [hv])).trans (if_pos hlen)

theorem exec_decFrame_of_long (hv : s.valid = true) (hlen : 20 ≤ s.buflen.toNat) :
    exec .decFrame s =
      if s.buflen.toNat - 20 < (fieldLength s).toNat then .next (setErr .length s)
      else .next (setErr .none { takeCommonFields s with len := fieldLength s }) :=
  (if_neg (by simp [hv])).trans (if_neg (Nat.not_lt.mpr hlen))

theorem exec_decReply_of_not_valid (hv : s.valid = false) : exec .decReply s = .next (setErr .notVerified s) := if_pos hv

theorem exec_decReply_of_short (hv : s.valid = true) (hlen : s.buflen.toNat < 16) :
    exec .decReply s = .next (setErr .short s) := (if_neg (by simp [hv])).trans (if_pos hlen)

theorem exec_decReply_of_long (hv : s.valid = true) (hlen : 16 ≤ s.buflen.toNat) :
    exec .decReply s = .next (setErr .none (takeCommonFields s)) :=
  (if_neg (by simp [hv])).trans (if_neg (Nat.not_lt.mpr hlen))

/-- Two runs of a command that fail with the same code leave each register as it was. -/
theorem failed_agree (hx : exec i s = .next t) (hx' : exec i s' = .next t') (hs : exec i s = .next (setErr e s))
    (hs' : exec i s' = .next (setErr e s')) (he : e ≠ .none) :
    t.err = t'.err ∧
    (t.err = 0x00#8 ∨ s.seq = s'.seq → t.seq = t'.seq) ∧ (t.err = 0x00#8 ∨ s.disc = s'.disc → t.disc = t'.disc) ∧
    (t.err = 0x00#8 ∨ s.len = s'.len → t.len = t'.len) := by
  cases hs.symm.trans hx
  cases hs'.symm.trans hx'
  have hne := errCode_ne_zero he
  exact ⟨rfl, (·.resolve_left hne), (·.resolve_left hne), (·.resolve_left hne)⟩

/-- `DEC_FRAME` reads `VALID`, `BUFLEN` and, where the buffer is long enough, the three header fields behind the checksum. -/
theorem decFrame_agree (hlen : s.buflen = s'.buflen) (hvalid : s.valid = s'.valid)
    (hbuf : 20 ≤ s.buflen.toNat → s.buf.readBytes 8 12 = s'.buf.readBytes 8 12)
    (hx : exec .decFrame s = .next t) (hx' : exec .decFrame s' = .next t') :
    t.err = t'.err ∧
    (t.err = 0x00#8 ∨ s.seq = s'.seq → t.seq = t'.seq) ∧ (t.err = 0x00#8 ∨ s.disc = s'.disc → t.disc = t'.disc) ∧
    (t.err = 0x00#8 ∨ s.len = s'.len → t.len = t'.len) := by
  rcases execDecFrame_cases s with ⟨hv, hs⟩ | ⟨hv, hshort, hs⟩ | ⟨hv, hlong, hfit, hs⟩ | ⟨hv, hlong, hfit, hs⟩
  · exact failed_agree hx hx' hs (exec_decFrame_of_not_valid (hvalid ▸ hv)) nofun
  · exact failed_agree hx hx' hs (exec_decFrame_of_short (hvalid ▸ hv) (hlen ▸ hshort)) nofun
  all_goals
    have hs' := exec_decFrame_of_long (hvalid ▸ hv) (hlen ▸ hlong)
    have hlength : fieldLength s = fieldLength s' := rdBe32_eq_of_readBytes_eq (hbuf hlong) (by simp) (by simp)
    rw [← hlen, ← hlength] at hs'
  · exact failed_agree hx hx' hs (hs'.trans (if_pos hfit)) nofun
  · have hseq : fieldSequence s = fieldSequence s' := rdBe32_eq_of_readBytes_eq (hbuf hlong) (by simp) (by simp)
    have hdisc : fieldDisc s = fieldDisc s' := rdBe32_eq_of_readBytes_eq (hbuf hlong) (by simp) (by simp)
    cases hs.symm.trans hx
    cases (hs'.trans (if_neg (Nat.not_lt.mpr hfit))).symm.trans hx'
    exact ⟨rfl, fun _ => hseq, fun _ => hdisc, fun _ => rfl⟩

/-- `DEC_REPLY` reads `VALID`, `BUFLEN` and, where the buffer is long enough, the two fields behind the checksum. -/
theorem decReply_agree (hlen : s.buflen = s'.buflen) (hvalid : s.valid = s'.valid)
    (hbuf : 16 ≤ s.buflen.toNat → s.buf.readBytes 8 8 = s'.buf.readBytes 8 8)
    (hx : exec .decReply s = .next t) (hx' : exec .decReply s' = .next t') :
    t.err = t'.err ∧
    (t.err = 0x00#8 ∨ s.seq = s'.seq → t.seq = t'.seq) ∧ (t.err = 0x00#8 ∨ s.disc = s'.disc → t.disc = t'.disc) ∧
    (s.len = s'.len → t.len = t'.len) := by
  rcases execDecReply_cases s with ⟨hv, hs⟩ | ⟨hv, hshort, hs⟩ | ⟨hv, hlong, hs⟩
  · obtain ⟨herr, hseq, hdisc, hlength⟩ := failed_agree hx hx' hs (exec_decReply_of_not_valid (hvalid ▸ hv)) nofun
    exact ⟨herr, hseq, hdisc, hlength ∘ .inr⟩
  · obtain ⟨herr, hseq, hdisc, hlength⟩ :=
      failed_agree hx hx' hs (exec_decReply_of_short (hvalid ▸ hv) (hlen ▸ hshort)) nofun
    exact ⟨herr, hseq, hdisc, hlength ∘ .inr⟩
  · have hseq : fieldSequence s = fieldSequence s' := rdBe32_eq_of_readBytes_eq (hbuf hlong) (by simp) (by simp)
    have hdisc : fieldDisc s = fieldDisc s' := rdBe32_eq_of_readBytes_eq (hbuf hlong) (by simp) (by simp)
    cases hs.symm.trans hx
    cases (exec_decReply_of_long (hvalid ▸ hv) (hlen ▸ hlong)).symm.trans hx'
    exact ⟨rfl, fun _ => hseq, fun _ => hdisc, id⟩

/-- Settles O45: a verify and a decode take the branch their operands select, and give what those hold. -/
theorem verifyAndDecodeReadOnlyTheirOperands : Obligations.VerifyAndDecodeReadOnlyTheirOperands := by
  intro s s' t t' hlen
  refine ⟨fun hbuf => ⟨fun hx hx' => ?_, fun hx hx' => ?_⟩, fun hvalid => ⟨?_, ?_⟩⟩
  · obtain ⟨hvalid, hcsum⟩ := verify_agree (least := MIN_FRAME) (by decide) hlen hbuf
    cases hx; cases hx'
    exact ⟨hvalid, rfl, hcsum⟩
  · obtain ⟨hvalid, hcsum⟩ := verify_agree (least := MIN_REPLY) (by decide) hlen hbuf
    cases hx; cases hx'
    exact ⟨hvalid, rfl, hcsum⟩
  · exact decFrame_agree hlen hvalid
  · exact decReply_agree hlen hvalid

end Sys2Proof.Machine
end

section
/-! Proofs about the decode commands (43_decode.md R110, R111) and about the bytes they leave in place for the host to read,
the payload slice of `BUF` (43_decode.md R114). -/

namespace Sys2Proof.Machine

variable {s t : State} {i : Instr}

/-! ### The decode commands -/

/-- Settles O13: the checks are made in the order of the four clauses. -/
theorem decFrameExtractsTheFields : Obligations.DecFrameExtractsTheFields :=
  fun _ => ⟨exec_decFrame_of_not_valid, exec_decFrame_of_short,
    fun hv hlong hover => (exec_decFrame_of_long hv hlong).trans (if_pos hover),
    fun hv hlong hfit => (exec_decFrame_of_long hv hlong).trans (if_neg (Nat.not_lt.mpr hfit))⟩

/-- Settles O14: the checks are made in the order of the three clauses. -/
theorem decReplyExtractsTheFields : Obligations.DecReplyExtractsTheFields :=
  fun _ => ⟨exec_decReply_of_not_valid, exec_decReply_of_short, exec_decReply_of_long⟩

/-- Settles O15: the check of the length is made only where `VALID = 1`, and there the invariant gives the 16 bytes. -/
theorem decReplyNeverShortUnderTheInvariants : Obligations.DecReplyNeverShortUnderTheInvariants := by
  intro s t h hx
  rcases execDecReply_cases s with ⟨-, e⟩ | ⟨hv, hshort, -⟩ | ⟨-, -, e⟩
  · cases e.symm.trans hx
    simp [errCode]
  · exact absurd (h.valid_len hv) (Nat.not_le.mpr hshort)
  · cases e.symm.trans hx
    simp [errCode]

/-! ### What the commands leave of `BUF` -/

/-- The encode commands alone write `BUF` (10_state.md R23). -/
theorem exec_buf_eq (hframe : i ≠ .encFrame) (hreply : i ≠ .encReply) (hx : exec i s = .next t) : t.buf = s.buf := by
  cases exec_commanded hx with
  | encFrame | encFrameError => exact absurd rfl hframe
  | encReply | encReplyError => exact absurd rfl hreply
  | verFrame | verReply => rw [verify_eq]; rfl
  | decFrame | decFrameError | decReply | decReplyError => rfl

/-- On every path `ENC_REPLY` leaves what lies behind the 16 bytes of a Reply. -/
theorem execEncReply_agreeOutside (hx : exec .encReply s = .next t) : t.buf.AgreeOutside 0 16 s.buf := by
  rcases execEncReply_cases s with ⟨-, e⟩ | ⟨-, e⟩ <;> cases e.symm.trans hx
  · exact fun _ _ => rfl
  · exact sealedReply_agreeOutside s

/-- A `CMD` write with any word but `ENC_FRAME` leaves what lies behind the 16 bytes of a Reply. -/
theorem runCommand_agreeOutside {w : Word} (hw : decode w ≠ .ok .encFrame) (hx : runCommand w s = .next t) :
    t.buf.AgreeOutside 0 16 s.buf := by
  rcases runCommand_cases w s with ⟨i, hi, e⟩ | ⟨_, -, e⟩ <;> rw [e] at hx
  · by_cases hreply : i = .encReply
    · exact execEncReply_agreeOutside (hreply ▸ hx)
    · have hbuf := exec_buf_eq (fun hframe => hw (hframe ▸ hi)) hreply hx
      exact fun x _ => congrArg (Memory.read · x) hbuf
  · cases raiseError_next.mp hx
    exact fun _ _ => rfl

/-- Settles O23: of the events left, only a host write of another byte and a command other than `ENC_FRAME` reach `BUF`. -/
theorem payloadSliceStaysUntilOverwritten : Obligations.PayloadSliceStaysUntilOverwritten := by
  intro s t e rest hp hx hreset hduring hcmd a ha hwrite
  cases step_cases hp hx with
  | reset => exact absurd rfl hreset
  | resetDuring r => exact absurd rfl (hduring r)
  | command r w _ hd ht => exact runCommand_agreeOutside (hcmd r w rfl hd) ht a (.inr ha)
  | bufWrite r x b hd _ => exact Memory.read_write_ne _ b (hwrite r x b rfl hd).symm
  | _ => rfl

end Sys2Proof.Machine
end

section
/-! Proofs about the two channels in which something can go wrong (60_exceptions.md R120 to R125): the code a `CMD` write
leaves, the `BusError` of a refused transaction, and runs that meet neither. -/

namespace Sys2Proof.Machine

open Sys2Proof.Claims

variable {s t : State} {e : HostEvent} {r : BusReq} {d : Except Reject Instr}

/-! ### The code a `CMD` write leaves -/

theorem legalDisc_eq_false_iff (v : Word) : legalDisc v = false ↔ v ≠ 1#32 ∧ v ≠ 2#32 := by simp [legalDisc]

/-- Settles O16: each command makes its checks in the order of the table, and ends at the first that fails. -/
theorem firstFailingCheckIsReported : Obligations.FirstFailingCheckIsReported := by
  intro w s t hx
  rcases runCommand_cases w s with ⟨i, hw, e⟩ | ⟨_, hw, e⟩ <;> rw [e] at hx <;> simp only [hw]
  · cases i with
    | encFrame =>
      rcases execEncFrame_cases s with ⟨hlen, e⟩ | ⟨hlen, hd, e⟩ | ⟨hlen, hd, e⟩ <;> cases e.symm.trans hx
      · exact (if_pos hlen).symm
      · have hbad := (legalDisc_eq_false_iff _).mp hd
        exact ((if_neg (Nat.not_lt.mpr hlen)).trans (if_pos hbad)).symm
      · have hgood := mt (legalDisc_eq_false_iff s.disc).mpr (by simp [hd])
        exact ((if_neg (Nat.not_lt.mpr hlen)).trans (if_neg hgood)).symm
    | encReply =>
      rcases execEncReply_cases s with ⟨hd, e⟩ | ⟨hd, e⟩ <;> cases e.symm.trans hx
      · exact (if_pos ((legalDisc_eq_false_iff _).mp hd)).symm
      · have hgood := mt (legalDisc_eq_false_iff s.disc).mpr (by simp [hd])
        exact (if_neg hgood).symm
    | verFrame | verReply => cases hx; rfl
    | decFrame =>
      rcases execDecFrame_cases s with ⟨hv, e⟩ | ⟨hv, hlen, e⟩ | ⟨hv, hlen, hfield, e⟩ | ⟨hv, hlen, hfield, e⟩
        <;> cases e.symm.trans hx
      · exact (if_pos hv).symm
      · exact ((if_neg (by simp [hv])).trans (if_pos hlen)).symm
      · exact ((if_neg (by simp [hv])).trans ((if_neg (Nat.not_lt.mpr hlen)).trans (if_pos hfield))).symm
      · exact ((if_neg (by simp [hv])).trans
          ((if_neg (Nat.not_lt.mpr hlen)).trans (if_neg (Nat.not_lt.mpr hfield)))).symm
    | decReply =>
      rcases execDecReply_cases s with ⟨hv, e⟩ | ⟨hv, hlen, e⟩ | ⟨hv, hlen, e⟩ <;> cases e.symm.trans hx
      · exact (if_pos hv).symm
      · exact ((if_neg (by simp [hv])).trans (if_pos hlen)).symm
      · exact ((if_neg (by simp [hv])).trans (if_neg (Nat.not_lt.mpr hlen))).symm
  · cases raiseError_next.mp hx
    rfl

/-- A command that leaves a code other than 0 has written nothing else (60_exceptions.md R123). -/
theorem Commanded.eq_of_err_ne_zero (h : Commanded s d t) (he : t.err ≠ 0x00#8) : t = { s with err := t.err } := by
  cases h with
  | illegal | encFrameError | encReplyError | decFrameError | decReplyError => rfl
  | encFrame | encReply | verFrame | verReply | decFrame | decReply => exact absurd rfl he

/-- Settles O17: the response stands before the command runs, which leaves it, and a failed command writes its
code alone. -/
theorem failedCommandWritesOnlyErr : Obligations.FailedCommandWritesOnlyErr := by
  intro s w rest hp
  obtain ⟨t, ht, hframe⟩ := runCommand_frame w (respond .ok { s with pending := rest })
  exact ⟨t, (step_pending hp).trans ((handle_cmdRequest w _).trans ht), hframe.responses,
    (runCommand_commanded ht).eq_of_err_ne_zero⟩

/-! ### `BusError` -/

theorem isCmdWrite_req : isCmdWrite (.req r) = true ↔ ∃ w, decodeBus r = .ok (.regWrite .cmd w) := by
  refine ⟨fun h => ?_, fun ⟨w, hd⟩ => by simp [isCmdWrite, hd]⟩
  simp only [isCmdWrite] at h
  split at h
  · next w hd => exact ⟨w, hd⟩
  · cases h

/-- A `CMD` write is answered `Ok` whatever its command does (60_exceptions.md R121). -/
theorem handle_responses_of_isCmdWrite (hc : isCmdWrite (.req r) = true) (h : handle (.req r) s = .next t) :
    t.responses = s.responses ++ [.ok] := by
  obtain ⟨w, hd⟩ := isCmdWrite_req.mp hc
  obtain ⟨u, hu, hframe⟩ := runCommand_frame w (respond .ok s)
  rw [handle, serve, hd] at h
  cases hu.symm.trans h
  exact hframe.responses

/-- Settles O26: a request is refused with no effect or answered otherwise, and only a `CMD` write runs a command. -/
theorem faultChannelsAreDisjoint : Obligations.FaultChannelsAreDisjoint := by
  intro s t r rest hp hx
  refine ⟨fun hbus => ?_, fun hc => ?_, fun hc => ?_⟩
  · rcases (step_cases hp hx).refused_or_answered with ⟨-, e⟩ | ⟨-, x, hne, hresp⟩
    · exact e
    · have hsame : [x] = [.busError] := List.append_cancel_left (hresp.symm.trans hbus)
      exact absurd (List.head_eq_of_cons_eq hsame) hne
  · exact handle_responses_of_isCmdWrite (s := { s with pending := rest }) hc ((step_pending hp).symm.trans hx)
  · obtain ⟨hothers, -⟩ := onlyCmdWritesAndResetWriteErr
    exact hothers s t (.req r) rest hp hx hc

/-! ### Runs in which nothing went wrong -/

/-- An event that did not go wrong leaves no code where none stood (60_exceptions.md R125). -/
theorem Handled.err_eq_zero (h : Handled s e t) (hw : wentWrong e s t = false) (hs : s.err = 0x00#8) :
    t.err = 0x00#8 := by
  cases h with
  | reset | resetDuring => rfl
  | command r w _ hd =>
    have hc : isCmdWrite (.req r) = true := isCmdWrite_req.mpr ⟨w, hd⟩
    have hcode := (Bool.or_eq_false_iff.mp hw).2
    rw [hc, Bool.true_and] at hcode
    exact not_not.mp (of_decide_eq_false hcode)
  | _ => exact hs

/-- A safe run is an event that goes on and does not go wrong, and then a safe run. -/
theorem safeRun_cons {es : List HostEvent} (h : safeRun (e :: es) s = true) :
    ∃ t, handle e s = .next t ∧ wentWrong e s t = false ∧ safeRun es t = true := by
  unfold safeRun at h
  split at h
  · next t ht => exact ⟨t, ht, by simpa using h⟩
  · cases h
  · cases h

/-- Settles O47, by induction on the events of the run. -/
theorem safeRunReachesItsEnd : Obligations.SafeRunReachesItsEnd := by
  intro es
  induction es with
  | nil => exact fun s _ => ⟨s, rfl, id⟩
  | cons e es ih =>
    intro s h
    obtain ⟨t, ht, hw, hsafe⟩ := safeRun_cons h
    obtain ⟨u, hu, herr⟩ := ih t hsafe
    exact ⟨u, by rw [runEvents_cons, ht, andThen_next, hu], fun hs => herr ((handle_cases ht).err_eq_zero hw hs)⟩

end Sys2Proof.Machine
end

section
/-! Proofs about how the hosts read and count sequence numbers (60_exceptions.md R145 items 4 and 5). -/

namespace Sys2Proof.Machine

variable {p : HostPolicy} {r : Receiver} {n : Int}

/-! ### Away from the ends of the range -/

/-- The policy `p` with another way to read and count sequence numbers. -/
def HostPolicy.counting (p : HostPolicy) (wraps signed : Bool) : HostPolicy :=
  { p with wrapsSequence := wraps, signedSequence := signed }

theorem seqNumber_counting (wraps signed : Bool) (h0 : 0 ≤ n) (h : n < 0x80000000) (w : Word) :
    seqNumber (p.counting wraps signed) w = n ↔ seqNumber p w = n :=
  (seqNumber_eq_small _ w h0 h).trans (seqNumber_eq_small p w h0 h).symm

theorem isDuplicate_counting (wraps signed : Bool) (h0 : 0 < r.expected) (h : r.expected < 0x7FFFFFFF) (w : Word) :
    isDuplicate (p.counting wraps signed) r w = isDuplicate p r w := by
  have hlow : 0 ≤ r.expected - 1 := by omega
  have hhigh : r.expected - 1 < 0x80000000 := by omega
  rw [isDuplicate, isDuplicate, seqPrev, seqPrev, seqResult_small _ hlow hhigh, seqResult_small _ hlow hhigh]
  exact decide_eq_decide.mpr (seqNumber_counting wraps signed hlow hhigh w)

theorem receiverDeliver_counting (wraps signed : Bool) (h0 : 0 < r.expected) (h : r.expected < 0x7FFFFFFF) (s : State) :
    receiverDeliver (p.counting wraps signed) r s = receiverDeliver p r s := by
  have hlow : 0 ≤ r.expected + 1 := by omega
  have hhigh : r.expected + 1 < 0x80000000 := by omega
  rw [receiverDeliver, receiverDeliver, seqNext, seqNext, seqResult_small _ hlow hhigh, seqResult_small _ hlow hhigh]

theorem receiverJudge_counting (wraps signed ok : Bool) (h0 : 0 < r.expected) (h : r.expected < 0x7FFFFFFF) (s : State) :
    receiverJudge (p.counting wraps signed) ok r s = receiverJudge p ok r s := by
  unfold receiverJudge
  rw [isDuplicate_counting wraps signed h0 h, receiverDeliver_counting wraps signed h0 h]
  simp only [seqNumber_counting wraps signed h0.le (by omega : r.expected < 0x80000000)]
  rfl

/-- Settles O53: the policy's counting is asked for in `receiverJudge` alone, and a number below 2^31 is read and
counted alike under every policy. -/
theorem sequenceReadingMattersOnlyAtTheEnds : Obligations.SequenceReadingMattersOnlyAtTheEnds := by
  intro p wraps signed ok d r s h0 h
  have hjudge : receiverJudge (p.counting wraps signed) ok r = receiverJudge p ok r :=
    funext (receiverJudge_counting wraps signed ok h0 h)
  have hverified : receiverVerified (p.counting wraps signed) ok r = receiverVerified p ok r := by
    unfold receiverVerified
    rw [hjudge]
  show receive (p.counting wraps signed) ok d r s = _
  unfold receive
  rw [hverified]
  rfl

/-! ### Before the name unit -/

/-- The number -1 is written `0xFFFFFFFF`, and only a host that reads bit 31 as a sign reads it back. -/
theorem seqNumber_eq_neg_one (w : Word) : seqNumber p w = -1 ↔ w = 0xFFFFFFFF#32 ∧ p.signedSequence = true := by
  unfold seqNumber
  split
  · next hs =>
    have hone : (0xFFFFFFFF#32 : Word).toInt = -1 := by decide
    rw [← hone, BitVec.toInt_inj, and_iff_left hs]
  · next hs => simp [hs]

/-- Settles O54: the number before 0 is the one of the pattern `0xFFFFFFFF` if the counter wraps, else -1. -/
theorem duplicateBeforeTheNameUnit : Obligations.DuplicateBeforeTheNameUnit := by
  intro p r seq h0
  rw [isDuplicate, decide_eq_true_iff, seqPrev, h0, seqResult]
  split
  · next hw =>
    have hpattern : seqPattern (0 - 1) = 0xFFFFFFFF#32 := by decide
    rw [hpattern]
    exact ⟨fun h => ⟨seqNumber_inj h, .inl hw⟩, fun h => congrArg _ h.1⟩
  · next hw =>
    rw [Int.zero_sub, seqNumber_eq_neg_one]
    simp [hw]

end Sys2Proof.Machine
end

section
/-! What the two hosts have the block do (60_exceptions.md R136, R137, R142): a datagram that is loaded and verified, and
the datagram an encode script leaves for sending. -/

namespace Sys2Proof.Machine

open Sys2Proof.Claims

variable {s t : State} {d body : List Byte} {least : Nat} {i : Instr}

/-! ### Datagrams -/

/-- The string `body` behind its own checksum, as an encode command puts it into `BUF` (40_checksum.md R83, R84). -/
def datagramOf (body : List Byte) : List Byte := be64 (widen (crc32 body)) ++ body

@[simp] theorem datagramOf_length (body : List Byte) : (datagramOf body).length = 8 + body.length := by
  simp [datagramOf]

/-- The host reads a sealed buffer out whole. -/
theorem Sealed.readBytes (h : Sealed body s) {n : Nat} (hn : n = 8 + body.length) :
    s.buf.readBytes 0 n = datagramOf body := by
  rw [hn, ← datagramOf_length]
  exact h.buf

/-- A datagram is sound if its first 8 bytes are the checksum of the rest (40_checksum.md R83). -/
def Sound (d : List Byte) : Prop := be64 (widen (crc32 (d.drop 8))) = d.take 8

theorem datagramOf_sound (body : List Byte) : Sound (datagramOf body) := by
  rw [Sound, datagramOf, List.drop_left' (be64_length _), List.take_left' (be64_length _)]

theorem be64_inj {v w : DWord} (h : be64 v = be64 w) : v = w := by
  rw [← rdBe64_writeBytes [] 0 v, h, rdBe64_writeBytes]

/-! ### Loading and verifying -/

/-- The datagram `d` has been loaded and put through a verify of minimum length `least`. -/
structure Examined (least : Nat) (d : List Byte) (t : State) : Prop where
  buflen : t.buflen.toNat = d.length
  buf : t.buf.HoldsAt 0 d
  valid : t.valid = true ↔ least ≤ d.length ∧ Sound d

/-- A slice of a buffer in which `d` stands is the slice of `d`. -/
theorem Memory.HoldsAt.readBytes_eq {m : Memory} (h : m.HoldsAt 0 d) {a n : Nat} (hn : a + n ≤ d.length) :
    m.readBytes a n = (d.drop a).take n := by
  refine List.ext_getElem (by simp; omega) fun i hi _ => ?_
  have hin : a + i < d.length := by simp at hi; omega
  rw [Memory.readBytes_getElem, List.getElem_take, List.getElem_drop, ← h.read hin, Nat.zero_add]

/-- Once `d` stands in a buffer, the comparison a verify makes is that of the bytes of `d`. -/
theorem sumOf_eq_stored_iff {m : Memory} (h : m.HoldsAt 0 d) (hd : 8 ≤ d.length) :
    sumOf m d.length = rdBe64 m 0 ↔ Sound d := by
  have hfield : be64 (rdBe64 m 0) = d.take 8 := (be64_rdBe64 m 0).trans (h.readBytes_eq (by omega))
  have hbody : m.readBytes 8 (d.length - 8) = d.drop 8 := by
    rw [h.readBytes_eq (by omega), List.take_of_length_le (by simp)]
  rw [Sound, ← hfield, ← hbody]
  exact ⟨congrArg be64, be64_inj⟩

/-- `loadbuf` and a verify command. -/
theorem runScript_loadbuf_verify (hi : ∀ u, exec i u = complete (verify least u)) (hleast : 8 ≤ least)
    (hd : d.length ≤ s.cfg.F) :
    ∃ t, runScript (expand (.loadbuf d) ++ [.cmd i]) s = .next t ∧ Examined least d t := by
  obtain ⟨m, r, hrun, hm⟩ := runScript_loadbuf d s hd
  have hF := s.cfg.F_le
  have hbuflen : (BitVec.ofNat 32 d.length).toNat = d.length := Nat.mod_eq_of_lt (by omega)
  have hbuf : m.HoldsAt 0 d :=
    (Memory.readBytes_congr _ _ _ _ fun x _ _ => hm x).trans (Memory.readBytes_writeBytes ..)
  refine ⟨_, by rw [runScript_append, hrun, andThen_next, runScript_cmd (hi _), runScript_nil], ?_⟩
  rw [verify_eq]
  refine ⟨hbuflen, hbuf, ?_⟩
  show decide _ = true ↔ _
  rw [decide_eq_true_iff, hbuflen]
  exact and_congr_right fun h => sumOf_eq_stored_iff hbuf (hleast.trans h)

theorem runScript_loadbuf_verFrame (hd : d.length ≤ s.cfg.F) :
    ∃ t, runScript (expand (.loadbuf d) ++ [.cmd .verFrame]) s = .next t ∧ Examined 20 d t :=
  runScript_loadbuf_verify (fun _ => rfl) (by decide) hd

theorem runScript_loadbuf_verReply (hd : d.length ≤ s.cfg.F) :
    ∃ t, runScript (expand (.loadbuf d) ++ [.cmd .verReply]) s = .next t ∧ Examined 16 d t :=
  runScript_loadbuf_verify (fun _ => rfl) (by decide) hd

theorem Examined.valid_eq_false (h : Examined least d t) (hd : ¬ Sound d) : t.valid = false :=
  Bool.eq_false_iff.mpr fun hv => hd (h.valid.mp hv).2

theorem Examined.valid_datagramOf (h : Examined least (datagramOf body) t) (hleast : least ≤ 8 + body.length) :
    t.valid = true :=
  h.valid.mpr ⟨hleast.trans (datagramOf_length body).ge, datagramOf_sound body⟩

theorem Examined.sealed (h : Examined least (datagramOf body) t) : Sealed body t :=
  ⟨h.buflen.trans (datagramOf_length body), h.buf⟩

/-! ### What the encode scripts leave -/

/-- The script `encode` completes without an error and keeps the parameter (30_encoding.md R76). -/
theorem runScript_encode_completes (s : State) {seq kind : Word} (hk : kind = 1#32 ∨ kind = 2#32) {p : List Byte}
    (hp : p.length ≤ s.cfg.cap) (h : runScript (expand (.encode seq.toNat kind.toNat p)) s = .next t) :
    t.err = 0x00#8 ∧ t.cfg = s.cfg := by
  obtain ⟨u, hrun, hcfg, -, hdisc, hlen, -⟩ := runScript_frameOperands s seq kind hp [.cmd .encFrame, .rd .stat]
  have hfits : u.len.toNat ≤ u.cfg.cap := by rwa [hlen, hcfg]
  have hlegal : legalDisc u.disc = true := by rwa [hdisc, legalDisc_iff]
  rw [expand, List.append_assoc] at h
  have hdone := hrun.trans (runScript_cmd (i := .encFrame) (execEncFrame_success hfits hlegal) [.rd .stat])
  cases hdone.symm.trans h
  exact ⟨rfl, hcfg⟩

/-- Whatever the content, the padding makes a Frame `F` bytes long (30_encoding.md R64). -/
theorem frameBody_size {c : Config} {seq kind : Word} {content : List Byte} (h : content.length ≤ c.cap) :
    c.F = 8 + (frameBody c seq kind content).length := by
  have hcap := c.cap_add_header
  rw [frameBody_length]
  omega

/-- The bytes of a Reply (30_encoding.md R61). -/
theorem datagramOf_replyBody (seq status : Word) :
    datagramOf (replyBody seq status) =
      be64 (0#32 ++ crc32 (be32 seq ++ be32 status)) ++ be32 seq ++ be32 status :=
  (List.append_assoc ..).symm

end Sys2Proof.Machine
end

section
/-! Proofs about the receiver as a program over the block (60_exceptions.md R140 to R143). -/

namespace Sys2Proof.Machine

variable {r : Receiver} {s : State} {c : Config} {d content : List Byte} {seq kind : Word}

/-! ### The receiver's Replies -/

theorem receiverNak_eq (r : Receiver) (s : State) :
    ∃ t, receiverNak r s = .next ⟨r, some (datagramOf (replyBody (seqPattern r.expected) S_NAK)), t⟩ := by
  obtain ⟨t, hrun, hsealed⟩ := runScript_encodeReply s (seq := seqPattern r.expected) (status := S_NAK) (.inr rfl)
  refine ⟨t, ?_⟩
  rw [receiverNak, hrun, andThen_next, replyBytes, hsealed.readBytes (n := RSZ) rfl]

/-- The script of an Ack leaves the Reply sealed in `BUF`, with the sequence that stood in `SEQ`. -/
theorem runScript_ack (s : State) :
    ∃ t, runScript [.wr .disc S_ACK.toNat, .cmd .encReply] s = .next t ∧ Sealed (replyBody s.seq S_ACK) t := by
  rw [runScript_wr (r := .disc) rfl, runScript_cmd (i := .encReply) (execEncReply_success rfl), runScript_nil]
  exact ⟨_, rfl, (replyEncoded_sealed (respond .ok { s with disc := S_ACK })).respond .ok⟩

theorem receiverAck_eq (r : Receiver) (s : State) :
    ∃ t, receiverAck r s = .next ⟨r, some (datagramOf (replyBody s.seq S_ACK)), t⟩ := by
  obtain ⟨t, hrun, hsealed⟩ := runScript_ack s
  refine ⟨t, ?_⟩
  rw [receiverAck, hrun, andThen_next, replyBytes, hsealed.readBytes (n := RSZ) rfl]

/-! ### The receiver's judgement -/

/-- A datagram of a legal length is loaded and verified. -/
theorem receive_examined (p : HostPolicy) (ok : Bool) (hf : r.failed = false) (hlow : 20 ≤ d.length)
    (hhigh : d.length ≤ s.cfg.F) : ∃ t, Examined 20 d t ∧ receive p ok d r s = receiverVerified p ok r t := by
  obtain ⟨t, hrun, ht⟩ := runScript_loadbuf_verFrame hhigh
  refine ⟨t, ht, ?_⟩
  rw [receive, if_neg (by simp [hf]), if_neg (show ¬ d.length < MIN_FRAME from Nat.not_lt.mpr hlow),
    if_neg (Nat.not_lt.mpr hhigh), hrun, andThen_next]

/-- Settles O50: the verify finds the datagram invalid. -/
theorem corruptDatagramIsNakked : Obligations.CorruptDatagramIsNakked := by
  intro p ok r d rb hf hlow hhigh hcorrupt
  obtain ⟨t, ht, hreceive⟩ := receive_examined p ok hf hlow hhigh
  obtain ⟨u, hnak⟩ := receiverNak_eq r t
  refine ⟨_, u, ?_, datagramOf_replyBody _ _⟩
  rw [hreceive, receiverVerified, if_pos (ht.valid_eq_false hcorrupt), hnak, S_NAK_eq]

/-- A Frame made for the same `F` reaches the receiver's judgement with its fields extracted. -/
theorem receive_frame (p : HostPolicy) (ok : Bool) (hf : r.failed = false) (hcfg : s.cfg = c)
    (hfits : content.length ≤ c.cap) :
    ∃ t, t.err = 0x00#8 ∧ t.seq = seq ∧ t.disc = kind ∧ payloadSlice t = content ∧
      receive p ok (datagramOf (frameBody c seq kind content)) r s = receiverJudge p ok r t := by
  have hlow := c.F_ge
  have hhigh := c.F_le
  have hcap := c.cap_add_header
  have hsize := frameBody_size (seq := seq) (kind := kind) hfits
  obtain ⟨u, hu, hreceive⟩ := receive_examined (s := s) (d := datagramOf (frameBody c seq kind content)) p ok hf
    (by simp; omega) (by rw [hcfg]; simp; omega)
  have hv := hu.valid_datagramOf (by omega)
  have hdec := hu.sealed.exec_decFrame hv
  obtain ⟨-, -, -, hcontent, -⟩ := holdsAt_frameBody.mp hu.sealed.content
  have hlen : (BitVec.ofNat 32 content.length).toNat = content.length := Nat.mod_eq_of_lt (by omega)
  have hslice : u.buf.readBytes 20 (BitVec.ofNat 32 content.length).toNat = content := by rwa [hlen]
  refine ⟨respond .ok { u with seq := seq, disc := kind, len := BitVec.ofNat 32 content.length, err := 0x00#8 },
    rfl, rfl, rfl, hslice, ?_⟩
  rw [hreceive, receiverVerified, if_neg (by simp [hv]), runScript_cmd hdec, runScript_nil, andThen_next]

/-- Steps 3 and 4 of 60_exceptions.md R142, on a Frame the receiver can use. -/
theorem receiverJudge_usable (p : HostPolicy) (ok : Bool) (r : Receiver) (he : s.err = 0x00#8)
    (hd : s.disc = 1#32 ∨ s.disc = 2#32) :
    receiverJudge p ok r s =
      if seqNumber p s.seq = r.expected then
        if ok = true then receiverAck (receiverDeliver p r s) s else .next ⟨{ r with failed := true }, none, s⟩
      else if isDuplicate p r s.seq = true then receiverAck r s else receiverNak r s := by
  have hlegal := (legalDisc_iff _).mpr hd
  rw [receiverJudge, if_neg (by simp [he, errCode]), if_neg (by simp [hlegal])]

/-- Settles O49: the number expected next is not that of the Frame, and the number before it is. -/
theorem duplicateFrameIsAckedNotRewritten : Obligations.DuplicateFrameIsAckedNotRewritten := by
  intro p ok r s t rb hx hlen hd hcfg hf hexpected
  cases (execEncFrame_success hlen (legalDisc_eq_true hd)).symm.trans hx
  rw [(frameEncoded_sealed hlen).readBytes (frame_size hlen)]
  obtain ⟨u, he, hseq, hdisc, -, hreceive⟩ := receive_frame p ok hf hcfg ((payload_length s).trans_le hlen)
  have hother : seqNumber p u.seq ≠ r.expected := by
    rw [hseq, hexpected]
    exact (seqNext_ne p _).symm
  have hduplicate : isDuplicate p r u.seq = true := by
    rw [isDuplicate, decide_eq_true_iff, hseq, hexpected, seqPrev_seqNext (by rw [seqPattern_seqNumber])]
  obtain ⟨v, hack⟩ := receiverAck_eq r u
  refine ⟨_, v, ?_, datagramOf_replyBody _ _⟩
  rw [hreceive, receiverJudge_usable p ok r he (hdisc ▸ hd), if_neg hother, if_pos hduplicate, hack, hseq, S_ACK_eq]

end Sys2Proof.Machine
end

section
/-! Proofs about the sender as a program over the block (60_exceptions.md R135 to R139), and about one unit on its way from
the sender to the receiver and back. -/

namespace Sys2Proof.Machine

variable {sd : Sender} {s t : State} {d content : List Byte} {least : Nat} {seq kind : Word}

/-! ### Resends -/

theorem senderAwait_timerExpiry (p : HostPolicy) (hphase : sd.phase = .awaitingAck) (s : State) :
    senderAwait p .timerExpiry sd s = senderResend p sd s := by
  simp only [senderAwait, hphase]

/-- A Reply of at most `F` bytes is loaded and verified. -/
theorem senderAwait_examined (p : HostPolicy) (hphase : sd.phase = .awaitingAck) (hd : d.length ≤ s.cfg.F) :
    ∃ t, Examined 16 d t ∧ senderAwait p (.reply d) sd s = senderVerified p sd t := by
  obtain ⟨t, hrun, ht⟩ := runScript_loadbuf_verReply hd
  refine ⟨t, ht, ?_⟩
  simp only [senderAwait, hphase]
  rw [if_neg (Nat.not_lt.mpr hd), hrun, andThen_next]

/-- Under the default policy, which sets no limit, a resend is one more of the same bytes. -/
theorem senderResend_default (sd : Sender) (s : State) :
    senderResend {} sd s = .next ⟨{ sd with retries := sd.retries + 1 }, some sd.frame, s⟩ := rfl

/-- Under the default policy every verified Reply but the Ack of the Frame just sent is answered by a resend. -/
theorem senderJudge_default (hs : s.disc = 1#32 → s.seq ≠ seqPattern sd.sentSeq) :
    senderJudge {} sd s = senderResend {} sd s := by
  unfold senderJudge
  split
  · next hack =>
    have hother : seqNumber {} s.seq ≠ sd.sentSeq := fun e => hs hack (by rw [← e, seqPattern_seqNumber])
    rw [if_neg hother]
  · split
    · rfl
    · rfl

/-- The fields `DEC_REPLY` takes are those of the datagram (43_decode.md R111). -/
theorem Examined.fields (h : Examined least d t) (hd : 16 ≤ d.length) :
    be32 (fieldSequence t) ++ be32 (fieldDisc t) = (d.drop 8).take 8 := by
  calc be32 (fieldSequence t) ++ be32 (fieldDisc t)
    _ = t.buf.readBytes 8 4 ++ t.buf.readBytes 12 4 := congrArg₂ (· ++ ·) (be32_rdBe32 _ 8) (be32_rdBe32 _ 12)
    _ = t.buf.readBytes 8 8 := (Memory.readBytes_add _ 8 4 4).symm
    _ = (d.drop 8).take 8 := h.buf.readBytes_eq hd

/-- Settles O51: such a Reply is found invalid, or its fields are not those of the Ack awaited. -/
theorem senderResendsTheIdenticalFrame : Obligations.SenderResendsTheIdenticalFrame := by
  intro sd sb hphase
  refine ⟨(senderAwait_timerExpiry {} hphase sb).trans (senderResend_default sd sb), fun d hd hbad => ?_⟩
  obtain ⟨t, ht, hawait⟩ := senderAwait_examined {} hphase hd
  rw [hawait, senderVerified]
  cases hv : t.valid with
  | false => exact ⟨t, rfl⟩
  | true =>
    obtain ⟨hlen, hsound⟩ := ht.valid.mp hv
    have hfields := (hbad.resolve_left (Nat.not_lt.mpr hlen)).resolve_left (not_not.mpr hsound)
    have hdec := exec_decReply_of_long hv (ht.buflen ▸ hlen)
    rw [if_neg (by decide), runScript_cmd hdec, runScript_nil, andThen_next, senderJudge_default]
    · exact ⟨_, senderResend_default sd _⟩
    · intro (hdisc : fieldDisc t = 1#32) (hseq : fieldSequence t = _)
      rw [← ht.fields hlen, hdisc, hseq] at hfields
      exact hfields rfl

/-! ### The round trip -/

/-- The sender once it has sent its next unit as `frame` for the first time, with the units `rest` left
(60_exceptions.md R136). -/
def Sender.sending (p : HostPolicy) (sd : Sender) (rest : List (Word × List Byte)) (frame : List Byte) : Sender :=
  { sd with
    phase := .awaitingAck, units := rest, nextSeq := seqNext p sd.nextSeq, sentSeq := sd.nextSeq, frame := frame,
    retries := 0 }

/-- A unit the block can encode is sent as its Frame (60_exceptions.md R136). -/
theorem senderTransmit_unit (p : HostPolicy) {rest : List (Word × List Byte)} {frame : List Byte}
    (hphase : sd.phase = .awaitingTransmit) (hunits : sd.units = (kind, content) :: rest)
    (hk : kind = 1#32 ∨ kind = 2#32) (hfits : content.length ≤ s.cfg.cap)
    (hframe : frame = datagramOf (frameBody s.cfg (seqPattern sd.nextSeq) kind content)) :
    ∃ t, senderTransmit p sd s = .next ⟨sd.sending p rest frame, some frame, t⟩ := by
  obtain ⟨t, hrun, hsealed⟩ := runScript_encode s (seq := seqPattern sd.nextSeq) hk hfits
  obtain ⟨herr, hcfg⟩ := runScript_encode_completes s hk hfits hrun
  have hread : t.buf.readBytes 0 t.cfg.F = frame := by
    rw [hcfg, hframe, hsealed.readBytes (frameBody_size hfits)]
  refine ⟨t, ?_⟩
  simp only [senderTransmit, hphase, hunits]
  rw [hrun, andThen_next, if_neg (by simp [herr, errCode]), hread, Sender.sending]

theorem senderJudge_ack (p : HostPolicy) (hdisc : s.disc = S_ACK) (hseq : seqNumber p s.seq = sd.sentSeq) :
    senderJudge p sd s = .next ⟨{ sd with phase := .awaitingTransmit }, none, s⟩ :=
  (if_pos hdisc).trans (if_pos hseq)

/-- The sender takes an Ack of the Frame just sent, and goes on (60_exceptions.md R137, R138). -/
theorem senderAwait_ack (p : HostPolicy) (hphase : sd.phase = .awaitingAck) (hseq : seqNumber p seq = sd.sentSeq) :
    ∃ t, senderAwait p (.reply (datagramOf (replyBody seq S_ACK))) sd s =
      .next ⟨{ sd with phase := .awaitingTransmit }, none, t⟩ := by
  have hF := s.cfg.F_ge
  obtain ⟨t, ht, hawait⟩ := senderAwait_examined (s := s) (d := datagramOf (replyBody seq S_ACK)) p hphase
    (by simp [replyBody]; omega)
  have hv := ht.valid_datagramOf le_rfl
  rw [hawait, senderVerified, if_neg (by simp [hv]), runScript_cmd (ht.sealed.exec_decReply hv), runScript_nil,
    andThen_next]
  exact ⟨_, senderJudge_ack p rfl hseq⟩

/-- Settles O48: the Frame sent is the one expected, so its payload is delivered, and the Ack carries its sequence. -/
theorem oneRoundTripDeliversTheUnit : Obligations.OneRoundTripDeliversTheUnit := by
  intro p sd r sb rb kind pl rest hphase hunits hk hfits hcfg hf hexpected hcount
  obtain ⟨sb1, htransmit⟩ := senderTransmit_unit p hphase hunits hk hfits rfl
  obtain ⟨u, he, hseq, hdisc, hslice, hreceive⟩ := receive_frame p true hf hcfg hfits
  have hnumber : seqNumber p u.seq = r.expected := by rw [hseq, hcount, hexpected]
  obtain ⟨rb1, hack⟩ := receiverAck_eq (receiverDeliver p r u) u
  rw [receiverJudge_usable p true r he (hdisc ▸ hk), if_pos hnumber, if_pos rfl, hack, hseq] at hreceive
  obtain ⟨sb2, hawait⟩ := senderAwait_ack (sd := sd.sending p rest _) (s := sb1) p rfl hcount
  refine ⟨_, _, _, _, _, sb1, sb2, rb1, htransmit, ?_, rfl, hreceive, rfl, rfl, hf, ?_, hawait, rfl, rfl, rfl⟩
  · rw [datagramOf_length, frameBody_size hfits]
  · have hzero : (u.seq = 0#32) ↔ r.expected = 0 := by rw [← hnumber, seqNumber_eq_zero]
    simp only [receiverDeliver, hslice, hzero]

end Sys2Proof.Machine
end

section
/-! Proofs about reset, about the step as the model's one way to go on, and about runs without a verify command
(70_reset_and_hazards.md R150 to R155, R161; 43_decode.md R113). -/

namespace Sys2Proof.Machine

open Sys2Proof.Claims

variable {s t : State} {e : HostEvent} {d : Except Reject Instr}

/-! ### Reset -/

/-- Settles O2: either reset event is handled by `resetBlock`. -/
theorem resetEventRestoresTheResetState : Obligations.ResetEventRestoresTheResetState := by
  intro s e rest hp hreset
  rw [step_pending hp]
  rcases hreset with rfl | ⟨r, rfl⟩
  · rfl
  · rfl

/-- Settles O3: after reset `LEN`, `DISC` and `BUFLEN` are 0 and `VALID` is clear, which decides the checks of every
command. -/
theorem commandsStraightAfterReset : Obligations.CommandsStraightAfterReset := by
  intro c
  have hdisc : ¬ LegalDisc (State.resetOf c) := by simp [LegalDisc, State.resetOf]
  obtain ⟨-, hencFrame, -⟩ := encFrameBuildsTheFrame (State.resetOf c)
  obtain ⟨hencReply, -⟩ := encReplyBuildsTheReply (State.resetOf c)
  obtain ⟨hverFrame, -⟩ := verFrameComparesTheChecksum (State.resetOf c)
  obtain ⟨hverReply, -⟩ := verReplyComparesTheChecksum (State.resetOf c)
  exact ⟨hencFrame (Nat.zero_le _) hdisc, hencReply hdisc, hverFrame (Nat.zero_lt_succ _),
    hverReply (Nat.zero_lt_succ _), exec_decFrame_of_not_valid rfl, exec_decReply_of_not_valid rfl⟩

/-! ### The step goes on -/

/-- Settles O34: with nothing pending the step is idle, and every event but a broken handshake is handled. -/
theorem stepGoesOnUnlessTheHandshakeBreaks : Obligations.StepGoesOnUnlessTheHandshakeBreaks := by
  intro s
  refine ⟨fun hno => ?_, fun ⟨rest, hp⟩ => step_pending hp⟩
  cases hp : s.pending with
  | nil => exact ⟨s, step_idle hp⟩
  | cons e rest =>
    have he : e ≠ .breaksHandshake := fun h => hno rest (h ▸ hp)
    obtain ⟨t, ht, -⟩ := handle_next he { s with pending := rest }
    exact ⟨t, (step_pending hp).trans ht⟩

/-! ### Without a verify command -/

/-- Of the commands only a verify can set `VALID` (10_state.md R19). -/
theorem Commanded.valid_eq_false (h : Commanded s d t) (hframe : d ≠ .ok .verFrame) (hreply : d ≠ .ok .verReply)
    (hv : s.valid = false) : t.valid = false := by
  cases h with
  | verFrame => exact absurd rfl hframe
  | verReply => exact absurd rfl hreply
  | encFrame | encReply => rfl
  | illegal | encFrameError | encReplyError | decFrame | decFrameError | decReply | decReplyError => exact hv

/-- The event is no verify command: a `CMD` write carries the word of neither (70_reset_and_hazards.md R155). -/
def NoVerify (e : HostEvent) : Prop :=
  ∀ r w, e = .req r → decodeBus r = .ok (.regWrite .cmd w) → decode w ≠ .ok .verFrame ∧ decode w ≠ .ok .verReply

theorem Handled.valid_eq_false (h : Handled s e t) (he : NoVerify e) (hv : s.valid = false) : t.valid = false := by
  cases h with
  | command r w _ hd ht =>
    obtain ⟨hframe, hreply⟩ := he r w rfl hd
    exact (runCommand_commanded ht).valid_eq_false hframe hreply hv
  | reset | resetDuring | buflenWrite | bufWrite => rfl
  | noTransaction | regRead | cmdRead | seqWrite | discWrite | lenWrite | buflenTooLarge | readOnly | bufRead
  | bufReadOut | bufWriteOut | payRead | payReadOut | payWrite | payWriteOut => exact hv

/-- `VALID` stays 0 along a run that holds no verify command. -/
theorem runEvents_valid_eq_false {es : List HostEvent} (hes : ∀ e ∈ es, NoVerify e) (hv : s.valid = false)
    (h : runEvents es s = .next t) : t.valid = false := by
  induction es generalizing s with
  | nil =>
    cases h
    exact hv
  | cons e es ih =>
    obtain ⟨he, hrest⟩ := List.forall_mem_cons.mp hes
    obtain ⟨u, hu, hrun⟩ := andThen_eq_next.mp h
    exact ih hrest ((handle_cases hu).valid_eq_false he hv) hrun

/-- Settles O24: `VALID` is still 0 at the end, and it is what both decode commands check first. -/
theorem decodeNeedsAVerifySinceTheLastChange : Obligations.DecodeNeedsAVerifySinceTheLastChange := by
  intro es s t hv hes hrun
  have ht := runEvents_valid_eq_false hes hv hrun
  exact ⟨ht, exec_decFrame_of_not_valid ht, exec_decReply_of_not_valid ht⟩

end Sys2Proof.Machine
end

section
/-! Proof that steps are the run of the pending events (20_memory.md R50; 70_reset_and_hazards.md R161). Nothing the
block does reads or writes the pending events, so every operation commutes with putting others in their place. -/

namespace Sys2Proof.Machine

/-- The state with other pending events. -/
def State.withPending (p : List HostEvent) (s : State) : State := { s with pending := p }

/-- An outcome with other pending events in its next state. -/
def withPending (p : List HostEvent) (x : Host.Outcome State Fault Refusal) : Host.Outcome State Fault Refusal :=
  andThen x fun t => .next (t.withPending p)

variable (p : List HostEvent) (s : State)

/-! ### Operations that leave the pending events -/

theorem withPending_ite (c : Prop) [Decidable c] (x y : Host.Outcome State Fault Refusal) :
    withPending p (if c then x else y) = if c then withPending p x else withPending p y := apply_ite _ _ _ _

theorem exec_withPending (i : Instr) : exec i (s.withPending p) = withPending p (exec i s) := by
  cases i with
  | encFrame | encReply | decFrame | decReply =>
    simp only [exec, execEncFrame, execEncReply, execDecFrame, execDecReply, withPending_ite]
    rfl
  | verFrame | verReply =>
    simp only [exec, execVerFrame, execVerReply, verify_eq]
    rfl

theorem runCommand_withPending (w : Word) : runCommand w (s.withPending p) = withPending p (runCommand w s) := by
  unfold runCommand
  cases decode w with
  | ok i => exact exec_withPending p s i
  | error _ => rfl

theorem answerRead_withPending (x : Except BusRefusal Word) :
    answerRead x (s.withPending p) = withPending p (answerRead x s) := by
  cases x with
  | ok v => rfl
  | error _ => rfl

theorem answerWrite_ite (c : Prop) [Decidable c] (x y : Except BusRefusal State) :
    answerWrite (if c then x else y) s = if c then answerWrite x s else answerWrite y s :=
  apply_ite (answerWrite · s) _ _ _

theorem regWrite_withPending (r : Reg) (v : Word) :
    regWrite r v (s.withPending p) = withPending p (regWrite r v s) := by
  cases r with
  | cmd => exact runCommand_withPending p (respond .ok s) v
  | buflen => simp only [regWrite, writeBuflen, answerWrite_ite, withPending_ite]; rfl
  | stat | seq | disc | len | csumHi | csumLo | fsize => rfl

theorem perform_withPending (tr : Transaction) : perform tr (s.withPending p) = withPending p (perform tr s) := by
  cases tr with
  | regRead r => exact answerRead_withPending p s (regRead r s)
  | regWrite r v => exact regWrite_withPending p s r v
  | bufRead a => exact answerRead_withPending p s (bufRead a s)
  | bufWrite a b => simp only [perform, bufWrite, answerWrite_ite, withPending_ite]; rfl
  | payRead a => exact answerRead_withPending p s (payRead a s)
  | payWrite a b => simp only [perform, payWrite, answerWrite_ite, withPending_ite]; rfl

theorem serve_withPending (r : BusReq) : serve r (s.withPending p) = withPending p (serve r s) := by
  unfold serve
  cases decodeBus r with
  | ok tr => exact perform_withPending p s tr
  | error _ => rfl

theorem handle_withPending (e : HostEvent) : handle e (s.withPending p) = withPending p (handle e s) := by
  cases e with
  | req r => exact serve_withPending p s r
  | reset | resetDuring | breaksHandshake => rfl

/-! ### Steps -/

/-- One step more is one step first. -/
theorem core_run_succ (k : Nat) :
    Host.Core.run Sys2Proof.core (k + 1) s = andThen (step s) (Host.Core.run Sys2Proof.core k) := by
  refine (Host.Core.run.eq_2 Sys2Proof.core s k).trans ?_
  show _ = andThen (Sys2Proof.core.step s) _
  cases Sys2Proof.core.step s with
  | next t => rfl
  | fault r => rfl
  | refused r => rfl

theorem core_run_withPending (es rest : List HostEvent) :
    Host.Core.run Sys2Proof.core es.length (s.withPending (es ++ rest)) = runEvents es (s.withPending rest) := by
  induction es generalizing s with
  | nil => rfl
  | cons e es ih =>
    have hstep : step (s.withPending (e :: es ++ rest)) = withPending (es ++ rest) (handle e s) :=
      handle_withPending (es ++ rest) s e
    rw [List.length_cons, core_run_succ, hstep, runEvents_cons, handle_withPending]
    cases handle e s with
    | next t => exact ih t
    | fault r => rfl
    | refused r => rfl

/-- Settles O46, by induction on the events served: each is handled alike whatever stands behind it. -/
theorem stepsAreTheRunOfThePendingEvents : Obligations.StepsAreTheRunOfThePendingEvents := by
  intro s es rest hp
  have hs : s = s.withPending (es ++ rest) := hp ▸ rfl
  rw [hs]
  exact core_run_withPending s es rest

end Sys2Proof.Machine
end
